-- ==== Sys2Proof/Word.lean ====
section
/-! DEFINITION. The widths the spec gives: bytes and 16-bit words (00_scope R6, R8). All values are unsigned. -/

namespace Sys2Proof

/-- An 8-bit value: a general register, a timer, a memory cell, an `NN` immediate (R6 `XLEN`, R50, R73). -/
abbrev Byte := BitVec 8

/-- A 16-bit value: `I`, `PC`, a stack slot, an instruction word (R6, R24, R25, R70). -/
abbrev Word := BitVec 16

/-- A general register number 0..15 (R21). -/
abbrev Reg := Fin 16

/-- Register 15, which doubles as the flag register (R22). -/
abbrev vf : Reg := 15

/-- An 8-bit value zero-extended to 16 bits (R9 `zext_16`). -/
abbrev Byte.toWord (b : Byte) : Word := b.setWidth 16

end Sys2Proof
end

