-- ==== Sys2Proof/Config.lean ====
section
/-! DEFINITION. What is fixed for the machine: the sizes of 00_scope R6, the reset entry of R7, and the one free
value the spec leaves open, `draw8()` (42_load_alu R152). -/

namespace Sys2Proof.Config

/-- `MEM_SIZE` (R6): bytes of the one memory. -/
@[simp] def memSize : Nat := 4096

/-- `PROG_BASE` (R6): the first address of the program image. -/
@[simp] def progBase : Nat := 0x200

/-- `MAX_IMAGE` (R6): the largest program image, `4096 - 0x200` bytes. -/
@[simp] def maxImage : Nat := 3584

/-- `RESET_PC` (R7, R251). -/
@[simp] def resetPc : Word := 0x0200

/-- `draw8()` (R152): the byte that the `n`-th execution of `RND` consumes. A FREE VALUE: it has no body, so nothing
can be proved of it and a claim holds for every sequence of draws (log entry 2, DESIGN CHOICE of form). -/
opaque draw8 : Nat → Byte

end Sys2Proof.Config
end

