-- ==== Sys2Proof/Machine/Memory.lean ====
section
/-! DEFINITION. The one memory (20_memory R50 to R56): the font, the reset contents, and byte, block and word access over
a canonical list of the bytes that differ from the reset contents. -/

namespace Sys2Proof.Machine

/-- The sprite table's 80 bytes (10_state R37), digit by digit, five rows each, top row first. -/
def fontData : List Byte :=
  [0xF0, 0x90, 0x90, 0x90, 0xF0] ++ [0x20, 0x60, 0x20, 0x20, 0x70] ++
  [0xF0, 0x10, 0xF0, 0x80, 0xF0] ++ [0xF0, 0x10, 0xF0, 0x10, 0xF0] ++
  [0x90, 0x90, 0xF0, 0x10, 0x10] ++ [0xF0, 0x80, 0xF0, 0x10, 0xF0] ++
  [0xF0, 0x80, 0xF0, 0x90, 0xF0] ++ [0xF0, 0x10, 0x20, 0x40, 0x40] ++
  [0xF0, 0x90, 0xF0, 0x90, 0xF0] ++ [0xF0, 0x90, 0xF0, 0x10, 0xF0] ++
  [0xF0, 0x90, 0xF0, 0x90, 0x90] ++ [0xE0, 0x90, 0xE0, 0x90, 0xE0] ++
  [0xF0, 0x80, 0x80, 0x80, 0xF0] ++ [0xE0, 0x90, 0x90, 0x90, 0xE0] ++
  [0xF0, 0x80, 0xF0, 0x80, 0xF0] ++ [0xF0, 0x80, 0xF0, 0x80, 0x80]

/-- `FONT_BASE` (R7, R37). -/
def fontBase : Nat := 0x000

/-- `FONT_STRIDE` (R7, R37): bytes between glyphs. -/
def fontStride : Nat := 5

/-- What an address that memory does not list reads as: its reset contents (R40), a font byte in
`FONT_BASE .. FONT_BASE+79` and 0x00 elsewhere. -/
def Memory.initial (a : Nat) : Byte :=
  if fontBase ≤ a then fontData.getD (a - fontBase) 0 else 0

/-- Addresses strictly rise from above `low`. -/
def Memory.risingFrom : Nat → List Host.Cell → Bool
  | _, [] => true
  | low, (k, _) :: m => decide (low ≤ k) && Memory.risingFrom (k + 1) m

/-- The canonical form: addresses strictly rise, all lie in 0x000..0xFFF, and no entry equals what its address reads as
unlisted. Equal memories are then equal lists. -/
def Memory.wf (m : List Host.Cell) : Bool :=
  Memory.risingFrom 0 m && m.all (fun c => decide (c.1 < Config.memSize) && decide (c.2 ≠ Memory.initial c.1))

/-- `MemRead(addr, 1)` (R52). -/
def Memory.read : List Host.Cell → Nat → Byte
  | [], a => Memory.initial a
  | (k, b) :: m, a => if k = a then b else Memory.read m a

/-- The list without an entry for `a`. -/
def Memory.erase (m : List Host.Cell) (a : Nat) : List Host.Cell :=
  m.filter (fun c => decide (c.1 ≠ a))

/-- The list with the entry `(a, b)` before the first higher address. -/
def Memory.insert : List Host.Cell → Nat → Byte → List Host.Cell
  | [], a, b => [(a, b)]
  | (k, c) :: m, a, b => if a < k then (a, b) :: (k, c) :: m else (k, c) :: Memory.insert m a b

/-- `MemWrite(addr, 1, v)` (R52); it keeps the canonical form, so writing the reset contents removes the entry. -/
def Memory.write (m : List Host.Cell) (a : Nat) (b : Byte) : List Host.Cell :=
  if b = Memory.initial a then Memory.erase m a else Memory.insert (Memory.erase m a) a b

/-- The bytes at `a`, `a + 1`, .. , `a + n - 1`, ascending (R52, R161). -/
def Memory.readBlock (m : List Host.Cell) (a n : Nat) : List Byte :=
  (List.range n).map (fun k => Memory.read m (a + k))

/-- Stores the bytes at `a`, `a + 1`, .. in ascending order (R52, R161). -/
def Memory.writeBlock : List Host.Cell → Nat → List Byte → List Host.Cell
  | m, _, [] => m
  | m, a, b :: bs => Memory.writeBlock (Memory.write m a b) (a + 1) bs

/-- `MemRead(addr, 2)` (R53): big-endian, `MEM[addr] * 256 + MEM[addr+1]`; used by instruction fetch only. -/
def Memory.readWord (m : List Host.Cell) (a : Nat) : Word :=
  BitVec.ofNat 16 ((Memory.read m a).toNat * 256 + (Memory.read m (a + 1)).toNat)

end Sys2Proof.Machine
end

