-- ==== Sys2Proof/Machine/State.lean ====
section
/-! DEFINITION. The state of the core (10_state R20: the complete list), the fault records (60_exceptions R210), the
refusals, and the state after reset (10_state R40, 70_reset_and_hazards R250). -/

namespace Sys2Proof.Machine

/-- The fault records of a `Step` (R38, R210), the values the latch `FAULT` holds besides `none`. A faulting step is a
NEXT state with its record latched (R215; log entry 1), so `step` and `exec` never answer `Outcome.fault`. -/
inductive Fault where
  /-- Code 1, raised by the decode phase of `Step` for a word that matches no row (R211). Safe: the spec's own fault. -/
  | unknownOpcode (w : Word)
  /-- Code 2, raised by the fetch, `LD B,VX`, `LD [I],VX`, `LD VX,[I]` and `DRW` when the range check fails (R212).
  Safe: the spec's own fault. -/
  | memoryOutOfBounds (addr : Word)
  /-- Code 3, raised by `CALL` when the stack holds 16 entries (R213). Safe: the spec's own fault. -/
  | stackOverflow
  /-- Code 4, raised by `RET` when the stack is empty (R214). Safe: the spec's own fault. -/
  | stackUnderflow
  deriving DecidableEq, Repr

/-- What the model gives no meaning. Nothing raises it: every instruction of the table has its meaning. -/
inductive Refusal where
  /-- Raised by an arm of `exec` whose instruction has no meaning yet; no arm does. Safe: a run stops. -/
  | notModelled (mnemonic : String)
  deriving DecidableEq, Repr

/-- The display grid (R33): 32 rows of 64 pixels, `fb[y][x]`, row 0 at the top, column 0 at the left; `true` is on. -/
abbrev Framebuffer := Vector (Vector Bool 64) 32

/-- The whole state of the core (R20), and the model's own counter of random draws. -/
structure State where
  /-- `V[0..15]` (R21); `V[15]` is `VF` (R22). -/
  v : Vector Byte 16
  /-- `I`, the index register (R24). -/
  i : Word
  /-- `PC`, the address of the next instruction word (R25). -/
  pc : Word
  /-- `STACK[0..15]` (R27). -/
  stack : Vector Word 16
  /-- `SP`, an integer 0..16, the number of entries in use (R27, R28). -/
  sp : Fin 17
  /-- `DT`, the delay timer (R29). -/
  dt : Byte
  /-- `ST`, the sound timer (R30). -/
  st : Byte
  /-- `MEM[0..4095]` (R32, R50): the bytes that differ from the reset contents, in canonical form (`Memory.wf`). -/
  mem : List Host.Cell
  /-- `FB[0..31][0..63]` (R33). -/
  fb : Framebuffer
  /-- `K[0..15]`, written by the host only (R34); `true` is pressed. -/
  keys : Vector Bool 16
  /-- `AWAIT`, the key-wait latch (R35). -/
  awaiting : Bool
  /-- `KX`, the register a pending `LD VX,K` must write (R36). -/
  kx : Reg
  /-- `FAULT`, the sticky fault latch (R38). -/
  fault : Option Fault
  /-- Not the spec's: how many bytes `draw8()` has supplied, so that each `RND` takes a fresh free value (log entry 2). -/
  draws : Nat
  deriving DecidableEq, Repr

/-- The state after `Reset`: the table of R40. Memory lists nothing because its reset contents, font included, are what
an unlisted address reads as (`Memory.initial`). `draws` is the model's own (log entry 2, DESIGN CHOICE). -/
def State.reset : State where
  v := Vector.replicate 16 0
  i := 0
  pc := Config.resetPc
  stack := Vector.replicate 16 0
  sp := 0
  dt := 0
  st := 0
  mem := []
  fb := Vector.replicate 32 (Vector.replicate 64 false)
  keys := Vector.replicate 16 false
  awaiting := false
  kx := 0
  fault := none
  draws := 0

end Sys2Proof.Machine
end

