-- ==== Sys2Proof/Machine/Ops.lean ====
section
/-! DEFINITION. The named operations over registers, memory, program counter and stack, the bounds check, and raising a
fault, which every meaning is written over. -/

namespace Sys2Proof.Machine

/-- What a step answers. -/
abbrev StepOutcome := Host.Outcome State Fault Refusal

/-- `V[x]` (00_scope R9, 10_state R21). -/
def State.reg (s : State) (x : Reg) : Byte := s.v[x]

/-- `V[x] <- b` (R9, R21). -/
def State.setReg (s : State) (x : Reg) (b : Byte) : State := { s with v := s.v.set x b }

/-- `pc_next` (40_step_cycle R103): the address of the executing instruction plus 2, modulo 2^16. -/
def State.pcNext (s : State) : Word := s.pc + 2

/-- The step commits with `PC = pc_next` (R100, R103). -/
def State.advance (s : State) : State := { s with pc := s.pcNext }

/-- The step commits with `PC <- target`, in place of the default advance (R104). -/
def State.jump (s : State) (target : Word) : State := { s with pc := target }

/-- A conditional skip (R103, 41_control_flow R128): `pc_next + 2` modulo 2^16 when the condition holds, else `pc_next`. -/
def State.skipIf (s : State) (c : Bool) : State := if c then s.jump (s.pcNext + 2) else s.advance

/-- Taking a fault (60_exceptions R215), the one exception entry of this hardware: nothing of the step is committed,
`PC` keeps the address of the faulting instruction, and `FAULT` takes the record. There is no return from it (R218). -/
def State.raise (s : State) (f : Fault) : State := { s with fault := some f }

/-- `CheckRange(base, n)` (20_memory R54), on natural numbers: the fault it raises, if any. -/
def checkRange (base : Word) (n : Nat) : Option Fault :=
  if n > 0 ∧ base.toNat + n - 1 > 0xFFF then
    some (.memoryOutOfBounds (BitVec.ofNat 16 (max base.toNat 0x1000)))
  else none

/-- An instruction that reaches `n` bytes at `I` (R54, 43_index_memory R161): the fault if the check fails, else its
effect. -/
def State.withRange (s : State) (n : Nat) (effect : State) : StepOutcome :=
  match checkRange s.i n with
  | some f => .next (s.raise f)
  | none => .next effect

/-- `MEM[a]`. -/
def State.readByte (s : State) (a : Nat) : Byte := Memory.read s.mem a

/-- `n` bytes from `a` up. -/
def State.readBlock (s : State) (a n : Nat) : List Byte := Memory.readBlock s.mem a n

/-- Stores bytes from `a` up. -/
def State.writeBlock (s : State) (a : Nat) (bs : List Byte) : State := { s with mem := Memory.writeBlock s.mem a bs }

/-- `STACK[SP] <- a; SP <- SP + 1`, or nothing when the stack holds 16 entries (10_state R27, 41_control_flow R123). -/
def State.push (s : State) (a : Word) : Option State :=
  if h : s.sp.val < 16 then
    some { s with stack := s.stack.set s.sp.val a h, sp := ⟨s.sp.val + 1, by omega⟩ }
  else none

/-- `SP <- SP - 1` and the slot `STACK[SP]` read with the new `SP`, or nothing when the stack is empty (R27, R121). -/
def State.pop (s : State) : Option (Word × State) :=
  if h : 0 < s.sp.val then
    some (s.stack[s.sp.val - 1]'(by omega), { s with sp := ⟨s.sp.val - 1, by omega⟩ })
  else none

/-- `draw8()` (42_load_alu R152): a fresh free value, and the state with the draw counted. -/
def State.draw (s : State) : Byte × State := (Config.draw8 s.draws, { s with draws := s.draws + 1 })

end Sys2Proof.Machine
end

