-- ==== Sys2Proof/Machine/Flags.lean ====
section
/-! DEFINITION. The flag computations: each is exactly 0 or 1, and `VF` is written last (10_state R22, R23;
42_load_alu R153). -/

namespace Sys2Proof.Machine

/-- A flag as the byte `VF` takes: 1 or 0 (R22). -/
def flagByte (c : Bool) : Byte := if c then 1 else 0

/-- The carry of an addition: 1 exactly when `a + b > 255` (R153). -/
def carryFlag (a b : Byte) : Byte := flagByte (decide (a.toNat + b.toNat > 255))

/-- The complement of the borrow of `a - b`: 1 exactly when `a >= b` (R153). -/
def notBorrowFlag (a b : Byte) : Byte := flagByte (decide (a.toNat ≥ b.toNat))

/-- The bit a right shift moves out: old bit 0 (R148). -/
def shiftRightFlag (a : Byte) : Byte := a &&& 1

/-- The bit a left shift moves out: old bit 7 (R150). -/
def shiftLeftFlag (a : Byte) : Byte := (a >>> 7) &&& 1

/-- The result in `V[x]`, then the flag in `VF`, last: with `x = 0xF` the flag wins (R23; D5). -/
def State.setRegFlag (s : State) (x : Reg) (result flag : Byte) : State := (s.setReg x result).setReg vf flag

end Sys2Proof.Machine
end

