-- ==== Sys2Proof/Machine/Alu.lean ====
section
/-! DEFINITION. Register load, arithmetic, logic, shift and random (42_load_alu). None faults, none touches memory, each
ends with `PC = pc_next`. -/

namespace Sys2Proof.Machine

/-- `LD VX,NN` (R140). -/
def execLdVxNn (x : Reg) (nn : Byte) (s : State) : StepOutcome := .next (s.setReg x nn).advance

/-- `ADD VX,NN` (R141): wraps, no flag. -/
def execAddVxNn (x : Reg) (nn : Byte) (s : State) : StepOutcome := .next (s.setReg x (s.reg x + nn)).advance

/-- `LD VX,VY` (R142). -/
def execLdVxVy (x y : Reg) (s : State) : StepOutcome := .next (s.setReg x (s.reg y)).advance

/-- `OR VX,VY` (R143): `VF` is not written as a flag. -/
def execOrVxVy (x y : Reg) (s : State) : StepOutcome := .next (s.setReg x (s.reg x ||| s.reg y)).advance

/-- `AND VX,VY` (R144). -/
def execAndVxVy (x y : Reg) (s : State) : StepOutcome := .next (s.setReg x (s.reg x &&& s.reg y)).advance

/-- `XOR VX,VY` (R145). -/
def execXorVxVy (x y : Reg) (s : State) : StepOutcome := .next (s.setReg x (s.reg x ^^^ s.reg y)).advance

/-- `ADD VX,VY` (R146): `VF` is the carry. -/
def execAddVxVy (x y : Reg) (s : State) : StepOutcome :=
  .next (s.setRegFlag x (s.reg x + s.reg y) (carryFlag (s.reg x) (s.reg y))).advance

/-- `SUB VX,VY` (R147): `VF` is 1 when there is no borrow. -/
def execSubVxVy (x y : Reg) (s : State) : StepOutcome :=
  .next (s.setRegFlag x (s.reg x - s.reg y) (notBorrowFlag (s.reg x) (s.reg y))).advance

/-- `SHR VX` (R148): `V[Y]` plays no part (R77). -/
def execShrVx (x : Reg) (s : State) : StepOutcome :=
  .next (s.setRegFlag x (s.reg x >>> 1) (shiftRightFlag (s.reg x))).advance

/-- `SUBN VX,VY` (R149). -/
def execSubnVxVy (x y : Reg) (s : State) : StepOutcome :=
  .next (s.setRegFlag x (s.reg y - s.reg x) (notBorrowFlag (s.reg y) (s.reg x))).advance

/-- `SHL VX` (R150): `V[Y]` plays no part (R77). -/
def execShlVx (x : Reg) (s : State) : StepOutcome :=
  .next (s.setRegFlag x (s.reg x <<< 1) (shiftLeftFlag (s.reg x))).advance

/-- `RND VX,NN` (R151): the drawn byte is a free value (R152). -/
def execRndVxNn (x : Reg) (nn : Byte) (s : State) : StepOutcome :=
  let (r, t) := s.draw
  .next (t.setReg x (r &&& nn)).advance

end Sys2Proof.Machine
end

