-- ==== Sys2Proof/Machine/Operands.lean ====
section
/-! DEFINITION. The operand forms: 12-bit addresses, the low nibble of a register, font glyph addresses, decimal digits,
register blocks `V0..VX`, and key flags. -/

namespace Sys2Proof.Machine

/-- `zext_16(NNN)`: an absolute byte address (30_encoding R73). -/
def addressOf (nnn : BitVec 12) : Word := nnn.setWidth 16

/-- `V[X] & 0x0F` as a digit or key number (43_index_memory R164, 45_keypad R190; D9). -/
def lowNibble (b : Byte) : Fin 16 := ⟨b.toNat % 16, by omega⟩

/-- `FONT_BASE + 5 * d` (R164). -/
def glyphAddress (d : Fin 16) : Word := BitVec.ofNat 16 (fontBase + fontStride * d.val)

/-- Hundreds, tens and ones of a byte, one digit per byte (43_index_memory R166; D10). -/
def bcdDigits (b : Byte) : List Byte :=
  [BitVec.ofNat 8 (b.toNat / 100), BitVec.ofNat 8 (b.toNat / 10 % 10), BitVec.ofNat 8 (b.toNat % 10)]

/-- `V[0], V[1], .. , V[x]`, inclusive (R168). -/
def State.regBlock (s : State) (x : Reg) : List Byte := s.v.toList.take (x.val + 1)

/-- `V[k] <- MEM[I + k]` for `k` in `0 .. x`, inclusive; registers above `x` keep their value (R170). -/
def State.loadRegBlock (s : State) (x : Reg) : State :=
  { s with v := Vector.ofFn fun k => if k.val ≤ x.val then s.readByte (s.i.toNat + k.val) else s.reg k }

/-- `K[k]` (10_state R34). -/
def State.keyDown (s : State) (k : Fin 16) : Bool := s.keys[k]

end Sys2Proof.Machine
end

