-- ==== Sys2Proof/Machine/ControlFlow.lean ====
section
/-! DEFINITION. Control flow (41_control_flow): return, jumps, call, and the four register skips. -/

namespace Sys2Proof.Machine

/-- `RET` (R121). -/
def execRet (s : State) : StepOutcome :=
  match s.pop with
  | none => .next (s.raise .stackUnderflow)
  | some (target, t) => .next (t.jump target)

/-- `JP NNN` (R122). -/
def execJpNnn (nnn : BitVec 12) (s : State) : StepOutcome := .next (s.jump (addressOf nnn))

/-- `CALL NNN` (R123): it pushes `pc_next` (R104). -/
def execCallNnn (nnn : BitVec 12) (s : State) : StepOutcome :=
  match s.push s.pcNext with
  | none => .next (s.raise .stackOverflow)
  | some t => .next (t.jump (addressOf nnn))

/-- `JP V0,NNN` (R129): the register is always `V0`. -/
def execJpV0Nnn (nnn : BitVec 12) (s : State) : StepOutcome := .next (s.jump (addressOf nnn + (s.reg 0).toWord))

/-- `SE VX,NN` (R124). -/
def execSeVxNn (x : Reg) (nn : Byte) (s : State) : StepOutcome := .next (s.skipIf (s.reg x == nn))

/-- `SNE VX,NN` (R125). -/
def execSneVxNn (x : Reg) (nn : Byte) (s : State) : StepOutcome := .next (s.skipIf (s.reg x != nn))

/-- `SE VX,VY` (R126). -/
def execSeVxVy (x y : Reg) (s : State) : StepOutcome := .next (s.skipIf (s.reg x == s.reg y))

/-- `SNE VX,VY` (R127). -/
def execSneVxVy (x y : Reg) (s : State) : StepOutcome := .next (s.skipIf (s.reg x != s.reg y))

end Sys2Proof.Machine
end

