-- ==== Sys2Proof/Machine/Framebuffer.lean ====
section
/-! DEFINITION. Operations over the display grid (10_state R33) and the XOR sprite blitter (44_display R181, R182). -/

namespace Sys2Proof.Machine

/-- `FB[y][x]` (R33); there is no pixel outside the 64 by 32 grid. -/
def Framebuffer.pixel (fb : Framebuffer) (x y : Nat) : Bool :=
  if h : x < 64 ∧ y < 32 then (fb[y]'h.2)[x]'h.1 else false

/-- `FB[y][x] <- FB[y][x] ^ 1` (R182), for a pixel of the grid. -/
def Framebuffer.flip (fb : Framebuffer) (x y : Nat) : Framebuffer :=
  if h : x < 64 ∧ y < 32 then
    fb.set y ((fb[y]'h.2).set x (!((fb[y]'h.2)[x]'h.1)) h.1) h.2
  else fb

/-- Every pixel off (R180). -/
def Framebuffer.blank : Framebuffer := Vector.replicate 32 (Vector.replicate 64 false)

/-- One sprite bit at column `x` of row `y` (R182): a 1 bit on the screen inverts its pixel and collides if the pixel was
on; a 0 bit, or a bit beyond the right or bottom edge, does nothing (R181 (e), (f)). -/
def blitPixel (p : Framebuffer × Bool) (x y : Nat) (bit : Bool) : Framebuffer × Bool :=
  if y ≤ 31 ∧ x ≤ 63 ∧ bit = true then
    (Framebuffer.flip p.1 x y, p.2 || Framebuffer.pixel p.1 x y)
  else p

/-- Columns `c .. 7` of one sprite byte: bit `7 - c` at column `x0 + c` (R181 (a), R182); `left` columns remain. -/
def blitColumns (p : Framebuffer × Bool) (x0 y : Nat) (b : Byte) : (left : Nat) → Framebuffer × Bool
  | 0 => p
  | left + 1 => blitColumns (blitPixel p (x0 + (7 - left)) y (b.getLsbD left)) x0 y b left

/-- One sprite byte drawn as row `y` (R181 (a)). -/
def blitRow (p : Framebuffer × Bool) (x0 y : Nat) (b : Byte) : Framebuffer × Bool :=
  blitColumns p x0 y b 8

/-- The sprite's bytes as successive rows from `y0` down (R181 (b), R182), with the collision flag so far. -/
def blitRows : Framebuffer × Bool → Nat → Nat → List Byte → Framebuffer × Bool
  | p, _, _, [] => p
  | p, x0, y0, b :: bs => blitRows (blitRow p x0 y0 b) x0 (y0 + 1) bs

end Sys2Proof.Machine
end

