-- ==== Sys2Proof/Machine/Display.lean ====
section
/-! DEFINITION. The display instructions (44_display), the only writers of the framebuffer (10_state R33). -/

namespace Sys2Proof.Machine

/-- `CLS` (R180). -/
def execCls (s : State) : StepOutcome := .next { s with fb := Framebuffer.blank }.advance

/-- The blit of `DRW VX,VY,N` (R182): the origin reduced into the screen, the `n` bytes at `I`, no collision so far. -/
def State.blit (s : State) (x y : Reg) (n : Nat) : Framebuffer × Bool :=
  blitRows (s.fb, false) ((s.reg x).toNat % 64) ((s.reg y).toNat % 32) (s.readBlock s.i.toNat n)

/-- The blit's outcome committed: the grid, then the collision flag in `VF`, last (R182; 10_state R23). -/
def State.commitBlit (s : State) (p : Framebuffer × Bool) : State := { s with fb := p.1 }.setReg vf (flagByte p.2)

/-- `DRW VX,VY,N` (R182): all `n` bytes are range-checked, and `VF` is always written. -/
def execDrwVxVyN (x y : Reg) (n : Nat) (s : State) : StepOutcome :=
  s.withRange n (s.commitBlit (s.blit x y n)).advance

end Sys2Proof.Machine
end

