-- ==== Sys2Proof/Machine/IndexMemory.lean ====
section
/-! DEFINITION. Index register and memory (43_index_memory). No instruction here changes `I` as a side effect of an
access (R161; D11); a failed range check commits nothing (20_memory R54; D3). -/

namespace Sys2Proof.Machine

/-- `LD I,NNN` (R160). -/
def execLdINnn (nnn : BitVec 12) (s : State) : StepOutcome := .next { s with i := addressOf nnn }.advance

/-- `ADD I,VX` (R162): modulo 2^16, no flag, no fault. -/
def execAddIVx (x : Reg) (s : State) : StepOutcome := .next { s with i := s.i + (s.reg x).toWord }.advance

/-- `LD F,VX` (R164): memory is not accessed. -/
def execLdFVx (x : Reg) (s : State) : StepOutcome := .next { s with i := glyphAddress (lowNibble (s.reg x)) }.advance

/-- `LD B,VX` (R166). -/
def execLdBVx (x : Reg) (s : State) : StepOutcome :=
  s.withRange 3 (s.writeBlock s.i.toNat (bcdDigits (s.reg x))).advance

/-- `LD [I],VX` (R168): stores `V0` through `VX`. -/
def execLdMemVx (x : Reg) (s : State) : StepOutcome :=
  s.withRange (x.val + 1) (s.writeBlock s.i.toNat (s.regBlock x)).advance

/-- `LD VX,[I]` (R170): loads `V0` through `VX`. -/
def execLdVxMem (x : Reg) (s : State) : StepOutcome := s.withRange (x.val + 1) (s.loadRegBlock x).advance

end Sys2Proof.Machine
end

