-- ==== Sys2Proof/Machine/Keypad.lean ====
section
/-! DEFINITION. The keypad instructions (45_keypad). The host operation that completes `LD VX,K` is `keyDeliver` in
HostOps. -/

namespace Sys2Proof.Machine

/-- `SKP VX` (R190). -/
def execSkpVx (x : Reg) (s : State) : StepOutcome := .next (s.skipIf (s.keyDown (lowNibble (s.reg x))))

/-- `SKNP VX` (R192). -/
def execSknpVx (x : Reg) (s : State) : StepOutcome := .next (s.skipIf (!s.keyDown (lowNibble (s.reg x))))

/-- `LD VX,K` (R194): the instruction's own step sets the latch and remembers `X`; `V[X]` is written by `KeyDeliver`. -/
def execLdVxK (x : Reg) (s : State) : StepOutcome := .next { s with awaiting := true, kx := x }.advance

end Sys2Proof.Machine
end

