-- ==== Sys2Proof/Machine/Timers.lean ====
section
/-! DEFINITION. The timer instructions (46_timers). The countdown itself is `tickTimers` in HostOps. -/

namespace Sys2Proof.Machine

/-- `LD VX,DT` (R200). -/
def execLdVxDt (x : Reg) (s : State) : StepOutcome := .next (s.setReg x s.dt).advance

/-- `LD DT,VX` (R201). -/
def execLdDtVx (x : Reg) (s : State) : StepOutcome := .next { s with dt := s.reg x }.advance

/-- `LD ST,VX` (R202). -/
def execLdStVx (x : Reg) (s : State) : StepOutcome := .next { s with st := s.reg x }.advance

end Sys2Proof.Machine
end

