-- ==== Sys2Proof/Syntax.lean ====
section
/-! DEFINITION. The instructions: one constructor per row of spec/opcode_table.json, in the table's order
(30_encoding R76). Operands are the fields of R71 that the row's format uses (R72, R73). -/

namespace Sys2Proof

/-- The 34 instructions (R2, R76). `SHR` and `SHL` have no `Y`: their `Y` field is ignored (R77). -/
inductive Instr where
  /-- Row 1, `00E0`: `CLS` (R180). -/
  | cls
  /-- Row 2, `00EE`: `RET` (R121). -/
  | ret
  /-- Row 3, `1NNN`: `JP NNN` (R122). -/
  | jpNnn (nnn : BitVec 12)
  /-- Row 4, `2NNN`: `CALL NNN` (R123). -/
  | callNnn (nnn : BitVec 12)
  /-- Row 5, `3XNN`: `SE VX,NN` (R124). -/
  | seVxNn (x : Reg) (nn : Byte)
  /-- Row 6, `4XNN`: `SNE VX,NN` (R125). -/
  | sneVxNn (x : Reg) (nn : Byte)
  /-- Row 7, `5XY0`: `SE VX,VY` (R126). -/
  | seVxVy (x y : Reg)
  /-- Row 8, `6XNN`: `LD VX,NN` (R140). -/
  | ldVxNn (x : Reg) (nn : Byte)
  /-- Row 9, `7XNN`: `ADD VX,NN` (R141). -/
  | addVxNn (x : Reg) (nn : Byte)
  /-- Row 10, `8XY0`: `LD VX,VY` (R142). -/
  | ldVxVy (x y : Reg)
  /-- Row 11, `8XY1`: `OR VX,VY` (R143). -/
  | orVxVy (x y : Reg)
  /-- Row 12, `8XY2`: `AND VX,VY` (R144). -/
  | andVxVy (x y : Reg)
  /-- Row 13, `8XY3`: `XOR VX,VY` (R145). -/
  | xorVxVy (x y : Reg)
  /-- Row 14, `8XY4`: `ADD VX,VY` (R146). -/
  | addVxVy (x y : Reg)
  /-- Row 15, `8XY5`: `SUB VX,VY` (R147). -/
  | subVxVy (x y : Reg)
  /-- Row 16, `8XY6`: `SHR VX` (R148). -/
  | shrVx (x : Reg)
  /-- Row 17, `8XY7`: `SUBN VX,VY` (R149). -/
  | subnVxVy (x y : Reg)
  /-- Row 18, `8XYE`: `SHL VX` (R150). -/
  | shlVx (x : Reg)
  /-- Row 19, `9XY0`: `SNE VX,VY` (R127). -/
  | sneVxVy (x y : Reg)
  /-- Row 20, `ANNN`: `LD I,NNN` (R160). -/
  | ldINnn (nnn : BitVec 12)
  /-- Row 21, `BNNN`: `JP V0,NNN` (R129). -/
  | jpV0Nnn (nnn : BitVec 12)
  /-- Row 22, `CXNN`: `RND VX,NN` (R151). -/
  | rndVxNn (x : Reg) (nn : Byte)
  /-- Row 23, `DXYN`: `DRW VX,VY,N` (R182). `n` is the row count. -/
  | drwVxVyN (x y : Reg) (n : Nat)
  /-- Row 24, `EX9E`: `SKP VX` (R190). -/
  | skpVx (x : Reg)
  /-- Row 25, `EXA1`: `SKNP VX` (R192). -/
  | sknpVx (x : Reg)
  /-- Row 26, `FX07`: `LD VX,DT` (R200). -/
  | ldVxDt (x : Reg)
  /-- Row 27, `FX0A`: `LD VX,K` (R194). -/
  | ldVxK (x : Reg)
  /-- Row 28, `FX15`: `LD DT,VX` (R201). -/
  | ldDtVx (x : Reg)
  /-- Row 29, `FX18`: `LD ST,VX` (R202). -/
  | ldStVx (x : Reg)
  /-- Row 30, `FX1E`: `ADD I,VX` (R162). -/
  | addIVx (x : Reg)
  /-- Row 31, `FX29`: `LD F,VX` (R164). -/
  | ldFVx (x : Reg)
  /-- Row 32, `FX33`: `LD B,VX` (R166). -/
  | ldBVx (x : Reg)
  /-- Row 33, `FX55`: `LD [I],VX` (R168). `x` is the last register stored. -/
  | ldMemVx (x : Reg)
  /-- Row 34, `FX65`: `LD VX,[I]` (R170). `x` is the last register loaded. -/
  | ldVxMem (x : Reg)
  deriving DecidableEq, Repr

end Sys2Proof
end

