-- ==== Sys2Proof/WellFormed.lean ====
section
/-! DEFINITION. Which terms of `Instr` a word can hold. Register numbers, `NN` and `NNN` carry their field's width in
their type (30_encoding R71); the row count of `DRW` is a number, and `N` is a 4-bit field (R71, R73). -/

namespace Sys2Proof

/-- The one check types do not make: the row count of `DRW VX,VY,N` is 0..15 (R71, R73). -/
def WellFormed (i : Instr) : Bool :=
  match i with
  | .drwVxVyN _ _ n => n ≤ 15
  | .cls | .ret | .jpNnn _ | .callNnn _ | .seVxNn _ _ | .sneVxNn _ _ | .seVxVy _ _ | .ldVxNn _ _ | .addVxNn _ _
  | .ldVxVy _ _ | .orVxVy _ _ | .andVxVy _ _ | .xorVxVy _ _ | .addVxVy _ _ | .subVxVy _ _ | .shrVx _ | .subnVxVy _ _
  | .shlVx _ | .sneVxVy _ _ | .ldINnn _ | .jpV0Nnn _ | .rndVxNn _ _ | .skpVx _ | .sknpVx _ | .ldVxDt _ | .ldVxK _
  | .ldDtVx _ | .ldStVx _ | .addIVx _ | .ldFVx _ | .ldBVx _ | .ldMemVx _ | .ldVxMem _ => true

end Sys2Proof
end

