-- ==== Sys2Proof/Decode.lean ====
section
/-! DEFINITION. The decoder (30_encoding R74), its table form (R76), the encoder, and the host's `decodeTableWord`.
The decoder is a pure function of the 16-bit word. -/

namespace Sys2Proof

/-- What the decoder answers for bytes that are no instruction. -/
inductive DecodeError where
  /-- No row of R76 matches the word (R74, R78); `Step` raises the fault of the same name. Safe: the spec's own fault. -/
  | unknownOpcode (w : Word)
  /-- Fewer than two bytes were given to `decodeBytes`. The model's own: `Step` always fetches two (R102). Safe. -/
  | truncated
  deriving DecidableEq, Repr

/-- `op`, bits 15..12 (R71). -/
def fieldOp (w : Word) : BitVec 4 := w.extractLsb' 12 4

/-- `X`, bits 11..8 (R71). -/
def fieldX (w : Word) : Reg := (w.extractLsb' 8 4).toFin

/-- `Y`, bits 7..4 (R71). -/
def fieldY (w : Word) : Reg := (w.extractLsb' 4 4).toFin

/-- `N`, bits 3..0 (R71). -/
def fieldN (w : Word) : BitVec 4 := w.extractLsb' 0 4

/-- `NN`, bits 7..0 (R71). -/
def fieldNN (w : Word) : Byte := w.extractLsb' 0 8

/-- `NNN`, bits 11..0 (R71). -/
def fieldNNN (w : Word) : BitVec 12 := w.extractLsb' 0 12

/-- Family 0: all sixteen bits are constant (R74, R79). -/
def decodeFamily0 (w : Word) : Except DecodeError Instr :=
  match w with
  | 0x00E0#16 => .ok .cls
  | 0x00EE#16 => .ok .ret
  | _ => .error (.unknownOpcode w)

/-- Family 8: the trailing nibble selects the operation (R74, R76 rows 10 to 18). -/
def decodeFamily8 (w : Word) : Except DecodeError Instr :=
  match fieldN w with
  | 0x0#4 => .ok (.ldVxVy (fieldX w) (fieldY w))
  | 0x1#4 => .ok (.orVxVy (fieldX w) (fieldY w))
  | 0x2#4 => .ok (.andVxVy (fieldX w) (fieldY w))
  | 0x3#4 => .ok (.xorVxVy (fieldX w) (fieldY w))
  | 0x4#4 => .ok (.addVxVy (fieldX w) (fieldY w))
  | 0x5#4 => .ok (.subVxVy (fieldX w) (fieldY w))
  | 0x6#4 => .ok (.shrVx (fieldX w))
  | 0x7#4 => .ok (.subnVxVy (fieldX w) (fieldY w))
  | 0xE#4 => .ok (.shlVx (fieldX w))
  | _ => .error (.unknownOpcode w)

/-- Family E: the trailing byte selects the operation (R74, R76 rows 24 and 25). -/
def decodeFamilyE (w : Word) : Except DecodeError Instr :=
  match fieldNN w with
  | 0x9E#8 => .ok (.skpVx (fieldX w))
  | 0xA1#8 => .ok (.sknpVx (fieldX w))
  | _ => .error (.unknownOpcode w)

/-- Family F: the trailing byte selects the operation (R74, R76 rows 26 to 34). -/
def decodeFamilyF (w : Word) : Except DecodeError Instr :=
  match fieldNN w with
  | 0x07#8 => .ok (.ldVxDt (fieldX w))
  | 0x0A#8 => .ok (.ldVxK (fieldX w))
  | 0x15#8 => .ok (.ldDtVx (fieldX w))
  | 0x18#8 => .ok (.ldStVx (fieldX w))
  | 0x1E#8 => .ok (.addIVx (fieldX w))
  | 0x29#8 => .ok (.ldFVx (fieldX w))
  | 0x33#8 => .ok (.ldBVx (fieldX w))
  | 0x55#8 => .ok (.ldMemVx (fieldX w))
  | 0x65#8 => .ok (.ldVxMem (fieldX w))
  | _ => .error (.unknownOpcode w)

/-- `Decode(w)` in the two-level form R74 gives: the primary nibble selects a family, families 0, 5, 8, 9, E and F look
at the trailing bits too (90_conflicts C2). -/
def decode (w : Word) : Except DecodeError Instr :=
  match fieldOp w with
  | 0x0#4 => decodeFamily0 w
  | 0x1#4 => .ok (.jpNnn (fieldNNN w))
  | 0x2#4 => .ok (.callNnn (fieldNNN w))
  | 0x3#4 => .ok (.seVxNn (fieldX w) (fieldNN w))
  | 0x4#4 => .ok (.sneVxNn (fieldX w) (fieldNN w))
  | 0x5#4 => if fieldN w = 0 then .ok (.seVxVy (fieldX w) (fieldY w)) else .error (.unknownOpcode w)
  | 0x6#4 => .ok (.ldVxNn (fieldX w) (fieldNN w))
  | 0x7#4 => .ok (.addVxNn (fieldX w) (fieldNN w))
  | 0x8#4 => decodeFamily8 w
  | 0x9#4 => if fieldN w = 0 then .ok (.sneVxVy (fieldX w) (fieldY w)) else .error (.unknownOpcode w)
  | 0xA#4 => .ok (.ldINnn (fieldNNN w))
  | 0xB#4 => .ok (.jpV0Nnn (fieldNNN w))
  | 0xC#4 => .ok (.rndVxNn (fieldX w) (fieldNN w))
  | 0xD#4 => .ok (.drwVxVyN (fieldX w) (fieldY w) (fieldN w).toNat)
  | 0xE#4 => decodeFamilyE w
  | 0xF#4 => decodeFamilyF w
  | _ => .error (.unknownOpcode w)

/-- Decoding from bytes in memory order: the first byte holds bits 15..8 (R53, R70). Total on any list. -/
def decodeBytes (bytes : List Byte) : Except DecodeError (Instr × List Byte) :=
  match bytes with
  | hi :: lo :: rest =>
    match decode (BitVec.ofNat 16 (hi.toNat * 256 + lo.toNat)) with
    | .ok i => .ok (i, rest)
    | .error e => .error e
  | [_] => .error .truncated
  | [] => .error .truncated

/-- The word of an instruction, from the patterns of R76: the row's `match` plus each operand in its field (R71).
The ignored `Y` of `SHR` and `SHL` is encoded as 0 (log entry 11). -/
def encode (i : Instr) : Word :=
  match i with
  | .cls => 0x00E0
  | .ret => 0x00EE
  | .jpNnn nnn => BitVec.ofNat 16 (0x1000 + nnn.toNat)
  | .callNnn nnn => BitVec.ofNat 16 (0x2000 + nnn.toNat)
  | .seVxNn x nn => BitVec.ofNat 16 (0x3000 + 0x100 * x.val + nn.toNat)
  | .sneVxNn x nn => BitVec.ofNat 16 (0x4000 + 0x100 * x.val + nn.toNat)
  | .seVxVy x y => BitVec.ofNat 16 (0x5000 + 0x100 * x.val + 0x10 * y.val)
  | .ldVxNn x nn => BitVec.ofNat 16 (0x6000 + 0x100 * x.val + nn.toNat)
  | .addVxNn x nn => BitVec.ofNat 16 (0x7000 + 0x100 * x.val + nn.toNat)
  | .ldVxVy x y => BitVec.ofNat 16 (0x8000 + 0x100 * x.val + 0x10 * y.val)
  | .orVxVy x y => BitVec.ofNat 16 (0x8001 + 0x100 * x.val + 0x10 * y.val)
  | .andVxVy x y => BitVec.ofNat 16 (0x8002 + 0x100 * x.val + 0x10 * y.val)
  | .xorVxVy x y => BitVec.ofNat 16 (0x8003 + 0x100 * x.val + 0x10 * y.val)
  | .addVxVy x y => BitVec.ofNat 16 (0x8004 + 0x100 * x.val + 0x10 * y.val)
  | .subVxVy x y => BitVec.ofNat 16 (0x8005 + 0x100 * x.val + 0x10 * y.val)
  | .shrVx x => BitVec.ofNat 16 (0x8006 + 0x100 * x.val)
  | .subnVxVy x y => BitVec.ofNat 16 (0x8007 + 0x100 * x.val + 0x10 * y.val)
  | .shlVx x => BitVec.ofNat 16 (0x800E + 0x100 * x.val)
  | .sneVxVy x y => BitVec.ofNat 16 (0x9000 + 0x100 * x.val + 0x10 * y.val)
  | .ldINnn nnn => BitVec.ofNat 16 (0xA000 + nnn.toNat)
  | .jpV0Nnn nnn => BitVec.ofNat 16 (0xB000 + nnn.toNat)
  | .rndVxNn x nn => BitVec.ofNat 16 (0xC000 + 0x100 * x.val + nn.toNat)
  | .drwVxVyN x y n => BitVec.ofNat 16 (0xD000 + 0x100 * x.val + 0x10 * y.val + n)
  | .skpVx x => BitVec.ofNat 16 (0xE09E + 0x100 * x.val)
  | .sknpVx x => BitVec.ofNat 16 (0xE0A1 + 0x100 * x.val)
  | .ldVxDt x => BitVec.ofNat 16 (0xF007 + 0x100 * x.val)
  | .ldVxK x => BitVec.ofNat 16 (0xF00A + 0x100 * x.val)
  | .ldDtVx x => BitVec.ofNat 16 (0xF015 + 0x100 * x.val)
  | .ldStVx x => BitVec.ofNat 16 (0xF018 + 0x100 * x.val)
  | .addIVx x => BitVec.ofNat 16 (0xF01E + 0x100 * x.val)
  | .ldFVx x => BitVec.ofNat 16 (0xF029 + 0x100 * x.val)
  | .ldBVx x => BitVec.ofNat 16 (0xF033 + 0x100 * x.val)
  | .ldMemVx x => BitVec.ofNat 16 (0xF055 + 0x100 * x.val)
  | .ldVxMem x => BitVec.ofNat 16 (0xF065 + 0x100 * x.val)

/-- One row of the table of R76: the row's `match`, its `mask`, and the instruction its format reads from the word. -/
structure OpcodeRow where
  /-- The `match` column. -/
  pattern : Word
  /-- The `mask` column. -/
  mask : Word
  /-- The instruction with its operands resolved, for a word that matches. -/
  operands : Word → Instr

/-- Rows 1 to 9 of R76. -/
def opcodeRows1To9 : List OpcodeRow :=
  [ ⟨0x00E0, 0xFFFF, fun _ => .cls⟩,
    ⟨0x00EE, 0xFFFF, fun _ => .ret⟩,
    ⟨0x1000, 0xF000, fun w => .jpNnn (fieldNNN w)⟩,
    ⟨0x2000, 0xF000, fun w => .callNnn (fieldNNN w)⟩,
    ⟨0x3000, 0xF000, fun w => .seVxNn (fieldX w) (fieldNN w)⟩,
    ⟨0x4000, 0xF000, fun w => .sneVxNn (fieldX w) (fieldNN w)⟩,
    ⟨0x5000, 0xF00F, fun w => .seVxVy (fieldX w) (fieldY w)⟩,
    ⟨0x6000, 0xF000, fun w => .ldVxNn (fieldX w) (fieldNN w)⟩,
    ⟨0x7000, 0xF000, fun w => .addVxNn (fieldX w) (fieldNN w)⟩ ]

/-- Rows 10 to 18 of R76 (family 8). -/
def opcodeRows10To18 : List OpcodeRow :=
  [ ⟨0x8000, 0xF00F, fun w => .ldVxVy (fieldX w) (fieldY w)⟩,
    ⟨0x8001, 0xF00F, fun w => .orVxVy (fieldX w) (fieldY w)⟩,
    ⟨0x8002, 0xF00F, fun w => .andVxVy (fieldX w) (fieldY w)⟩,
    ⟨0x8003, 0xF00F, fun w => .xorVxVy (fieldX w) (fieldY w)⟩,
    ⟨0x8004, 0xF00F, fun w => .addVxVy (fieldX w) (fieldY w)⟩,
    ⟨0x8005, 0xF00F, fun w => .subVxVy (fieldX w) (fieldY w)⟩,
    ⟨0x8006, 0xF00F, fun w => .shrVx (fieldX w)⟩,
    ⟨0x8007, 0xF00F, fun w => .subnVxVy (fieldX w) (fieldY w)⟩,
    ⟨0x800E, 0xF00F, fun w => .shlVx (fieldX w)⟩ ]

/-- Rows 19 to 25 of R76. -/
def opcodeRows19To25 : List OpcodeRow :=
  [ ⟨0x9000, 0xF00F, fun w => .sneVxVy (fieldX w) (fieldY w)⟩,
    ⟨0xA000, 0xF000, fun w => .ldINnn (fieldNNN w)⟩,
    ⟨0xB000, 0xF000, fun w => .jpV0Nnn (fieldNNN w)⟩,
    ⟨0xC000, 0xF000, fun w => .rndVxNn (fieldX w) (fieldNN w)⟩,
    ⟨0xD000, 0xF000, fun w => .drwVxVyN (fieldX w) (fieldY w) (fieldN w).toNat⟩,
    ⟨0xE09E, 0xF0FF, fun w => .skpVx (fieldX w)⟩,
    ⟨0xE0A1, 0xF0FF, fun w => .sknpVx (fieldX w)⟩ ]

/-- Rows 26 to 34 of R76 (family F). -/
def opcodeRows26To34 : List OpcodeRow :=
  [ ⟨0xF007, 0xF0FF, fun w => .ldVxDt (fieldX w)⟩,
    ⟨0xF00A, 0xF0FF, fun w => .ldVxK (fieldX w)⟩,
    ⟨0xF015, 0xF0FF, fun w => .ldDtVx (fieldX w)⟩,
    ⟨0xF018, 0xF0FF, fun w => .ldStVx (fieldX w)⟩,
    ⟨0xF01E, 0xF0FF, fun w => .addIVx (fieldX w)⟩,
    ⟨0xF029, 0xF0FF, fun w => .ldFVx (fieldX w)⟩,
    ⟨0xF033, 0xF0FF, fun w => .ldBVx (fieldX w)⟩,
    ⟨0xF055, 0xF0FF, fun w => .ldMemVx (fieldX w)⟩,
    ⟨0xF065, 0xF0FF, fun w => .ldVxMem (fieldX w)⟩ ]

/-- The complete table of R76, row for row and in its order. -/
def opcodeTable : List OpcodeRow :=
  opcodeRows1To9 ++ opcodeRows10To18 ++ opcodeRows19To25 ++ opcodeRows26To34

/-- A word selects a row when `(w & mask) = match` (R76). -/
def OpcodeRow.selects (r : OpcodeRow) (w : Word) : Bool := w &&& r.mask == r.pattern

/-- `Decode(w)` in the table form of R74, the reference `decode` is held to. -/
def decodeByTable (w : Word) : Except DecodeError Instr :=
  match opcodeTable.find? (fun r => r.selects w) with
  | some r => .ok (r.operands w)
  | none => .error (.unknownOpcode w)

/-- The two bytes of a table word in memory order: big-endian, the high byte at the lower address (R53, R70). Bits at and
above `nbits` are 0. -/
def tableWordBytes (nbits w : Nat) : List Byte :=
  [BitVec.ofNat 8 (w % 2 ^ nbits / 256), BitVec.ofNat 8 (w % 2 ^ nbits)]

/-- The instruction the decoder reads from the table word `w` (the host's fixed name). -/
def decodeTableWord (nbits w : Nat) : Option Instr :=
  match decodeBytes (tableWordBytes nbits w) with
  | .ok (i, _) => some i
  | .error _ => none

end Sys2Proof
end

