-- ==== Sys2Proof/Machine/Fetch.lean ====
section
/-! DEFINITION. The fetch and decode phases of `Step` (40_step_cycle R100, R102), what a `Step` reports (R100, R101,
60_exceptions R230), when a run is finished (R108), and placing an instruction where the next fetch reads it. -/

namespace Sys2Proof.Machine

/-- `Step` runs: neither halted nor waiting (R101). -/
def State.running (s : State) : Bool := s.fault.isNone && !s.awaiting

/-- Fetch and decode (R100, R102, R216): the range check on `PC`, the big-endian word, the decoder; the first fault wins. -/
def State.fetchDecode (s : State) : Except Fault Instr :=
  match checkRange s.pc 2 with
  | some f => .error f
  | none =>
    match decode (Memory.readWord s.mem s.pc.toNat) with
    | .ok i => .ok i
    | .error _ => .error (.unknownOpcode (Memory.readWord s.mem s.pc.toNat))

/-- The results a `Step` returns to the host (R230). -/
inductive StepReport where
  /-- One instruction was executed. -/
  | ok
  /-- `AWAIT = 1`: nothing happened (R101 (b)). -/
  | waiting
  /-- `FAULT != none`: nothing happened (R101 (a)). -/
  | halted
  /-- The step raised this fault (R215 (d)). -/
  | fault (f : Fault)
  deriving DecidableEq, Repr

/-- The result of a `Step` that led from `s` to `t` (R100, R101, R215). A halted core's step reports `halted`, as R101 and
R230 say, not the latched fault again, as 93_implementation_defined S2 words it (DEDUCED; log entry 18). -/
def stepReport (s t : State) : StepReport :=
  if s.fault.isSome then .halted
  else if s.awaiting then .waiting
  else
    match t.fault with
    | some f => .fault f
    | none => .ok

/-- "Finished" (40_step_cycle R108; log entry 17): a running core at an address `a` whose two bytes spell `1NNN` with
`NNN = a`, the self-jump that ends a program. No run ends by itself. -/
def State.finished (s : State) : Bool :=
  s.running && decide (s.pc.toNat ≤ 0xFFE ∧ (Memory.readWord s.mem s.pc.toNat).toNat = 0x1000 + s.pc.toNat)

/-- The numeric code of a fault (R210; D2). -/
def Fault.code (f : Fault) : Nat :=
  match f with
  | .unknownOpcode _ => 1
  | .memoryOutOfBounds _ => 2
  | .stackOverflow => 3
  | .stackUnderflow => 4

/-- The state with `bytes` where the next step fetches, able to fetch them: not halted, not waiting, and with `PC` where a
word fits (0x200 if it was beyond 0xFFE). -/
def State.placeAtPc (s : State) (bytes : List Byte) : State :=
  let pc := if s.pc.toNat ≤ 0xFFE then s.pc else Config.resetPc
  { s with mem := Memory.writeBlock s.mem pc.toNat bytes, pc := pc, fault := none, awaiting := false }

end Sys2Proof.Machine
end

