-- ==== Sys2Proof/Machine/Step.lean ====
section
/-! DEFINITION. `Step` (40_step_cycle R100) and the host's `withFetchWord`. -/

namespace Sys2Proof.Machine

/-- `Step` (R100): nothing while halted or waiting (R101); a fetch or decode fault is raised; else the decoded
instruction is executed. -/
def step (s : State) : Host.Outcome State Fault Refusal :=
  if s.running then
    match s.fetchDecode with
    | .error f => .next (s.raise f)
    | .ok i => exec i s
  else .next s

/-- The table word `w` stored where `step` fetches its next instruction (the host's fixed name; log entry 10). -/
def State.withFetchWord (s : State) (nbits w : Nat) : State := s.placeAtPc (tableWordBytes nbits w)

end Sys2Proof.Machine
end

