-- ==== Sys2Proof/Machine/HostOps.lean ====
section
/-! DEFINITION. The host's operations and the timer tick (60_exceptions R230, R231): everything besides `Step` that
changes the state. None looks at `FAULT`. -/

namespace Sys2Proof.Machine

/-- `Reset` (70_reset_and_hazards R250): every state element at its reset value; the model's draw counter runs on, so that
draws after a reset are fresh (log entry 3). -/
def resetMachine (s : State) : State := { State.reset with draws := s.draws }

/-- The results of `Load` (R256, R257). -/
inductive LoadResult where
  /-- The image was copied. -/
  | ok
  /-- Code 5 (60_exceptions R210): the image exceeds 3584 bytes and nothing was written; never latched in `FAULT`. -/
  | imageTooLarge
  deriving DecidableEq, Repr

/-- `Load(image)` (R256, R257): the bytes verbatim from 0x200, or the whole image rejected. -/
def load (image : List Byte) (s : State) : LoadResult × State :=
  if image.length > Config.maxImage then (.imageTooLarge, s) else (.ok, s.writeBlock Config.progBase image)

/-- `SetKeys(k)` (60_exceptions R230): `K[j] <- k[j]`; nothing else. -/
def setKeys (k : BitVec 16) (s : State) : State := { s with keys := Vector.ofFn fun j => k.getLsbD j.val }

/-- `KeyDeliver(k)` (45_keypad R196): completes a pending `LD VX,K`; no change when none is pending (log entry 9). -/
def keyDeliver (k : BitVec 4) (s : State) : State :=
  if s.awaiting then { s.setReg s.kx (k.setWidth 8) with awaiting := false } else s

/-- One timer counted down by one tick, not below 0 (46_timers R203). -/
def countDown (t : Byte) : Byte := if t ≠ 0 then t - 1 else t

/-- `TickTimers` (R203): each timer on its own, in every state. -/
def tickTimers (s : State) : State := { s with dt := countDown s.dt, st := countDown s.st }

/-- The output `sound_on` (10_state R31). -/
def State.soundOn (s : State) : Bool := s.st != 0

end Sys2Proof.Machine
end

