-- ==== Sys2Proof/Machine/System.lean ====
section
/-! DEFINITION. The six atomic operations of 60_exceptions R230 as one transition: the only ways the state changes. -/

namespace Sys2Proof.Machine

/-- The operations of R230. -/
inductive Op where
  /-- `Reset` (R250). -/
  | reset
  /-- `Load(image)` (R256); it may come at any time (log entry 8). -/
  | load (image : List Byte)
  /-- `SetKeys(k)`. -/
  | setKeys (k : BitVec 16)
  /-- `KeyDeliver(k)` (R196). -/
  | keyDeliver (k : BitVec 4)
  /-- `Step` (R100). -/
  | step
  /-- `TickTimers` (R203). -/
  | tickTimers
  deriving DecidableEq, Repr

/-- The state change of one operation; results other than the state are `stepReport` and `LoadResult`. -/
def applyOp (o : Op) (s : State) : StepOutcome :=
  match o with
  | .reset => .next (resetMachine s)
  | .load image => .next (load image s).2
  | .setKeys k => .next (setKeys k s)
  | .keyDeliver k => .next (keyDeliver k s)
  | .step => step s
  | .tickTimers => .next (tickTimers s)

end Sys2Proof.Machine
end

