-- ==== Sys2Proof/Safety.lean ====
section
/-! DEFINITION. What claims are said in: the invariant of the machine, reachability under every interleaving of the six
operations, and the parts of the state that a frame leaves unchanged. -/

namespace Sys2Proof.Safety

open Sys2Proof.Machine

/-- A latched fault agrees with the state it was raised in: the reported word does not decode (R211), the reported
address is 0x1000 or more (R210, R212), the stack was full or empty (R213, R214). -/
def FaultConsistent (s : State) : Prop :=
  match s.fault with
  | none => True
  | some (.unknownOpcode w) => decode w = .error (.unknownOpcode w)
  | some (.memoryOutOfBounds a) => 0x1000 ≤ a.toNat
  | some .stackOverflow => s.sp = 16
  | some .stackUnderflow => s.sp = 0

/-- The invariant of the machine: memory is canonical and holds no address outside 0x000..0xFFF (R50); `PC` is at most
0x10FE and every stack slot at most 0x1000 (R26: no sum of `PC` wraps); the core does not wait for a key and hold a fault
at once (93_implementation_defined U16); a latched fault agrees with the state. -/
structure Inv (s : State) : Prop where
  /-- Memory is in canonical form. -/
  memory : Memory.wf s.mem = true
  /-- `PC <= 0x10FE`. -/
  pcBound : s.pc.toNat ≤ 0x10FE
  /-- Every slot holds a `pc_next` of a fetched `CALL`, or 0. -/
  stackBound : ∀ j : Fin 16, s.stack[j].toNat ≤ 0x1000
  /-- Not waiting and halted at once. -/
  oneStop : s.awaiting = true → s.fault = none
  /-- The latch agrees with the state. -/
  faultOk : FaultConsistent s

/-- Every state the machine can be in: reset, then any operations of R230 in any order (R107). -/
inductive Reachable : State → Prop where
  /-- A freshly initialized machine (R250). -/
  | reset : Reachable State.reset
  /-- Any operation whose outcome is a next state. -/
  | op {s t : State} (o : Op) : Reachable s → applyOp o s = .next t → Reachable t

/-- `Step` fetches from memory: it runs, and the word at `PC` lies in memory (R101, R102). -/
def CanFetch (s : State) : Prop := s.fault = none ∧ s.awaiting = false ∧ s.pc.toNat ≤ 0xFFE

/-- The parts of the state that a frame speaks of; `PC` is stated by itself. -/
inductive Part where
  /-- `V[0..15]`. -/
  | regs
  /-- `I`. -/
  | index
  /-- `STACK` and `SP`. -/
  | stack
  /-- `DT`. -/
  | delayTimer
  /-- `ST`. -/
  | soundTimer
  /-- Every byte of `MEM`. -/
  | memory
  /-- `FB`. -/
  | display
  /-- `K`. -/
  | keys
  /-- `AWAIT` and `KX`. -/
  | wait
  /-- `FAULT`. -/
  | fault
  /-- The model's counter of draws. -/
  | draws
  deriving DecidableEq, Repr

/-- The part has the same value in both states; memory is compared byte by byte. -/
def SamePart (p : Part) (s t : State) : Prop :=
  match p with
  | .regs => ∀ r : Reg, t.reg r = s.reg r
  | .index => t.i = s.i
  | .stack => t.stack = s.stack ∧ t.sp = s.sp
  | .delayTimer => t.dt = s.dt
  | .soundTimer => t.st = s.st
  | .memory => ∀ a : Nat, t.readByte a = s.readByte a
  | .display => t.fb = s.fb
  | .keys => t.keys = s.keys
  | .wait => t.awaiting = s.awaiting ∧ t.kx = s.kx
  | .fault => t.fault = s.fault
  | .draws => t.draws = s.draws

/-- Everything but the parts of `changed` (and `PC`) has the same value in both states. -/
def FrameBut (changed : List Part) (s t : State) : Prop := ∀ p : Part, p ∉ changed → SamePart p s t

/-- Every general register but those of `changed` has the same value in both states. -/
def SameRegsBut (changed : List Reg) (s t : State) : Prop := ∀ r : Reg, r ∉ changed → t.reg r = s.reg r

/-- Every byte of memory outside `lo .. lo+n-1` has the same value in both states. -/
def SameBytesBut (lo n : Nat) (s t : State) : Prop :=
  ∀ a : Nat, ¬ (lo ≤ a ∧ a < lo + n) → t.readByte a = s.readByte a

/-- The step from `s` to `t` took the fault `f` and left no other trace (60_exceptions R215). -/
def Raised (f : Fault) (s t : State) : Prop := t.fault = some f ∧ t.pc = s.pc ∧ FrameBut [.fault] s t

/-- The fault of an access that starts at `base` and runs out of memory: it reports the lowest address outside memory
that the access would have touched (20_memory R54). -/
def RaisedOutOfBounds (base : Word) (s t : State) : Prop :=
  ∃ a : Word, a.toNat = max base.toNat 0x1000 ∧ Raised (.memoryOutOfBounds a) s t

/-- Every word that `(w & mask) = pattern` selects decodes to `operands w` (30_encoding R76). -/
def EncodedAs (pattern mask : Word) (operands : Word → Instr) : Prop :=
  ∀ w : Word, w &&& mask = pattern → decode w = .ok (operands w)

/-- `DRW VX,VY,N` has a 1 bit for the pixel in column `px` of row `py`: row `py - y0` of the sprite, bit `7 - (px - x0)`,
with the origin `(x0, y0)` reduced into the screen (44_display R181, R182). -/
def spriteOn (s : State) (x y : Reg) (n px py : Nat) : Bool :=
  let x0 := (s.reg x).toNat % 64
  let y0 := (s.reg y).toNat % 32
  decide (x0 ≤ px ∧ px < x0 + 8 ∧ y0 ≤ py ∧ py < y0 + n) &&
    (s.readByte (s.i.toNat + (py - y0))).getLsbD (7 - (px - x0))

/-- The six instructions that write `VF` as a side effect (10_state R22). -/
def writesFlag (i : Instr) : Bool :=
  match i with
  | .addVxVy _ _ | .subVxVy _ _ | .shrVx _ | .subnVxVy _ _ | .shlVx _ | .drwVxVyN _ _ _ => true
  | .cls | .ret | .jpNnn _ | .callNnn _ | .seVxNn _ _ | .sneVxNn _ _ | .seVxVy _ _ | .ldVxNn _ _ | .addVxNn _ _
  | .ldVxVy _ _ | .orVxVy _ _ | .andVxVy _ _ | .xorVxVy _ _ | .sneVxVy _ _ | .ldINnn _ | .jpV0Nnn _ | .rndVxNn _ _
  | .skpVx _ | .sknpVx _ | .ldVxDt _ | .ldVxK _ | .ldDtVx _ | .ldStVx _ | .addIVx _ | .ldFVx _ | .ldBVx _ | .ldMemVx _
  | .ldVxMem _ => false

/-- The register an instruction without a flag names as its destination `X` (10_state R22); `LD VX,[I]` reaches `VF` when
`X = 0xF`. -/
def destination (i : Instr) : Option Reg :=
  match i with
  | .ldVxNn x _ | .addVxNn x _ | .ldVxVy x _ | .orVxVy x _ | .andVxVy x _ | .xorVxVy x _ | .rndVxNn x _ | .ldVxDt x
  | .ldVxMem x => some x
  | .cls | .ret | .jpNnn _ | .callNnn _ | .seVxNn _ _ | .sneVxNn _ _ | .seVxVy _ _ | .addVxVy _ _ | .subVxVy _ _ | .shrVx _
  | .subnVxVy _ _ | .shlVx _ | .sneVxVy _ _ | .ldINnn _ | .jpV0Nnn _ | .drwVxVyN _ _ _ | .skpVx _ | .sknpVx _ | .ldVxK _
  | .ldDtVx _ | .ldStVx _ | .addIVx _ | .ldFVx _ | .ldBVx _ | .ldMemVx _ => none

end Sys2Proof.Safety
end

