-- ==== Sys2Proof/Certificates/Slice0/Obligations.lean ====
section
/-! DEFINITION. The statements for the provers. Each docstring names the rule of spec/ it formalises. -/

open Sys2Proof Sys2Proof.Machine Sys2Proof.Safety

/-! ## Encoding -/

/-- Decode and encode agree (30_encoding R71 to R73, R76): no bit of an operand is dropped, for every instruction. -/
def Obligations.DecodeOfEncodeIsIdentity : Prop :=
  ∀ i : Instr, WellFormed i = true → decode (encode i) = .ok i

/-- R74: the decoder answers the row of the table that `(w & mask) = match` selects, with the row's fields, or
`UnknownOpcode(w)`; the row is unique. -/
def Obligations.DecodeFollowsTheOpcodeTable : Prop :=
  (∀ w : Word, decode w = decodeByTable w) ∧
  (∀ (w : Word) (r : OpcodeRow), r ∈ opcodeTable → r.selects w = true → decode w = .ok (r.operands w)) ∧
  (∀ w : Word, (∀ r ∈ opcodeTable, r.selects w = false) → decode w = .error (.unknownOpcode w))

/-- R75, its first sentence: the 34 rows are pairwise disjoint. -/
def Obligations.OpcodeRowsAreDisjoint : Prop :=
  opcodeTable.length = 34 ∧
  ∀ w : Word, opcodeTable.Pairwise fun r q => ¬ (r.selects w = true ∧ q.selects w = true)

/-- R78: the words that do not decode are exactly those of its table of families. -/
def Obligations.IllegalWordsByFamily : Prop :=
  ∀ w : Word,
    (decode w = .error (.unknownOpcode w) ↔
      (w.toNat / 4096 = 0 ∧ w.toNat ≠ 0x00E0 ∧ w.toNat ≠ 0x00EE) ∨
      (w.toNat / 4096 = 5 ∧ w.toNat % 16 ≠ 0) ∨
      (w.toNat / 4096 = 8 ∧ w.toNat % 16 ∈ [8, 9, 0xA, 0xB, 0xC, 0xD, 0xF]) ∨
      (w.toNat / 4096 = 9 ∧ w.toNat % 16 ≠ 0) ∨
      (w.toNat / 4096 = 0xE ∧ w.toNat % 256 ≠ 0x9E ∧ w.toNat % 256 ≠ 0xA1) ∨
      (w.toNat / 4096 = 0xF ∧ w.toNat % 256 ∉ [0x07, 0x0A, 0x15, 0x18, 0x1E, 0x29, 0x33, 0x55, 0x65])) ∧
    (∀ e : DecodeError, decode w = .error e → e = .unknownOpcode w)

/-- R79: `0NNN` is no instruction but for `00E0` and `00EE`, and `BNNN` is `JP V0,NNN` for every `NNN`. -/
def Obligations.ZeroFamilyAndBFamily : Prop :=
  (∀ w : Word, w.toNat < 0x1000 → w ≠ 0x00E0 → w ≠ 0x00EE → decode w = .error (.unknownOpcode w)) ∧
  (∀ nnn : BitVec 12, decode (BitVec.ofNat 16 (0xB000 + nnn.toNat)) = .ok (.jpV0Nnn nnn))

/-- R77: all 16 values of `Y` in `8XY6` and `8XYE` decode to the same instruction, and no other instruction has an ignored
field: two words that decode to one instruction are the same word. -/
def Obligations.OnlyShiftsIgnoreAField : Prop :=
  (∀ x y : Reg, decode (BitVec.ofNat 16 (0x8006 + 0x100 * x.val + 0x10 * y.val)) = .ok (.shrVx x) ∧
    decode (BitVec.ofNat 16 (0x800E + 0x100 * x.val + 0x10 * y.val)) = .ok (.shlVx x)) ∧
  (∀ (w u : Word) (i : Instr), decode w = .ok i → decode u = .ok i → (∀ x, i ≠ .shrVx x) → (∀ x, i ≠ .shlVx x) → w = u)

/-- Decoding yields only well-formed instructions (R71, R73). -/
def Obligations.DecodedIsWellFormed : Prop :=
  ∀ (w : Word) (i : Instr), decode w = .ok i → WellFormed i = true

/-- Words of 95_test_vectors section 2.0 and the instructions they stand for: a sanity statement. -/
def Obligations.SampleWordsDecode : Prop :=
  decode 0x2DEF = .ok (.callNnn 0xDEF) ∧ decode 0x3A7F = .ok (.seVxNn 0xA 0x7F) ∧
  decode 0x8CD5 = .ok (.subVxVy 0xC 0xD) ∧ decode 0x8EF6 = .ok (.shrVx 0xE) ∧
  decode 0xD89A = .ok (.drwVxVyN 0x8 0x9 0xA) ∧ decode 0xECA1 = .ok (.sknpVx 0xC) ∧
  decode 0xF655 = .ok (.ldMemVx 0x6) ∧ decode 0xF064 = .error (.unknownOpcode 0xF064)

/-! ## The step cycle -/

/-- R100, R105: a running core whose two bytes at `PC`, high byte first, decode to `i` executes `i`, with nothing around
it; the step reports the fault it raised or `ok`. -/
def Obligations.StepRunsTheDecodedInstruction : Prop :=
  ∀ (s : State) (i : Instr), CanFetch s →
    decode (BitVec.ofNat 16 ((s.readByte s.pc.toNat).toNat * 256 + (s.readByte (s.pc.toNat + 1)).toNat)) = .ok i →
    step s = exec i s ∧
      ∀ t : State, exec i s = .next t →
        stepReport s t = match t.fault with | some f => .fault f | none => .ok

/-- R101: while a fault is latched, or a key is awaited, `Step` changes nothing and reports `halted` (log entry 18) or
`waiting`; the fault is reported first; ticks and
key changes behave as usual; only `Reset` ends a halt, and only `KeyDeliver` and `Reset` lift a wait. -/
def Obligations.HaltedOrWaitingStepChangesNothing : Prop :=
  (∀ s : State, s.fault ≠ none → step s = .next s ∧ stepReport s s = .halted) ∧
  (∀ s : State, s.fault = none → s.awaiting = true → step s = .next s ∧ stepReport s s = .waiting) ∧
  (∀ (s : State) (f : Option Fault) (w : Bool) (k : BitVec 16),
    tickTimers { s with fault := f, awaiting := w } = { tickTimers s with fault := f, awaiting := w } ∧
    setKeys k { s with fault := f, awaiting := w } = { setKeys k s with fault := f, awaiting := w }) ∧
  (∀ (s t : State) (o : Op), applyOp o s = .next t → o ≠ .reset →
    (s.fault ≠ none → t.fault ≠ none) ∧
    (s.awaiting = true → (∀ k, o ≠ .keyDeliver k) → t.awaiting = true))

/-- R102: a fetch that runs past 0xFFF raises `MemoryOutOfBounds`, with 0x1000 for `PC = 0xFFF` and `PC` itself from 0x1000
up; at any other `PC`, odd or even, the big-endian word is what decides, and nothing is changed by fetching. -/
def Obligations.FetchIsBoundsCheckedOnly : Prop :=
  (∀ s : State, s.fault = none → s.awaiting = false → s.pc.toNat = 0xFFF →
    ∃ t, step s = .next t ∧ Raised (.memoryOutOfBounds 0x1000) s t) ∧
  (∀ s : State, s.fault = none → s.awaiting = false → s.pc.toNat ≥ 0x1000 →
    ∃ t, step s = .next t ∧ Raised (.memoryOutOfBounds s.pc) s t) ∧
  (∀ s : State, CanFetch s →
    step s = match decode (BitVec.ofNat 16
        ((s.readByte s.pc.toNat).toNat * 256 + (s.readByte (s.pc.toNat + 1)).toNat)) with
      | .ok i => exec i s
      | .error _ => .next (s.raise (.unknownOpcode (BitVec.ofNat 16
          ((s.readByte s.pc.toNat).toNat * 256 + (s.readByte (s.pc.toNat + 1)).toNat)))))

/-- R108, and the model's `finished` (log entry 17): a finished core is one that runs, at a fetchable `JP a` at `a`; its
step is reported `ok` and changes nothing, and steps, ticks and key operations leave it finished. A running core's step
changes nothing only there, or at a `JP V0,NNN` whose sum is its own address. No run ends: each step answers a state. -/
def Obligations.FinishedIsTheSelfJump : Prop :=
  (∀ s : State, s.finished = true ↔ CanFetch s ∧ ∃ nnn : BitVec 12,
    decode (BitVec.ofNat 16 ((s.readByte s.pc.toNat).toNat * 256 + (s.readByte (s.pc.toNat + 1)).toNat)) =
      .ok (.jpNnn nnn) ∧ nnn.toNat = s.pc.toNat) ∧
  (∀ s : State, s.finished = true → step s = .next s ∧ stepReport s s = .ok) ∧
  (∀ (o : Op) (s t : State), s.finished = true → applyOp o s = .next t → o ≠ .reset → (∀ image, o ≠ .load image) →
    t.finished = true) ∧
  (∀ s : State, s.fault = none → s.awaiting = false →
    (step s = .next s ↔ s.finished = true ∨ (s.pc.toNat ≤ 0xFFE ∧ ∃ nnn : BitVec 12,
      decode (BitVec.ofNat 16 ((s.readByte s.pc.toNat).toNat * 256 + (s.readByte (s.pc.toNat + 1)).toNat)) =
        .ok (.jpV0Nnn nnn) ∧ nnn.toNat + (s.reg 0).toNat = s.pc.toNat))) ∧
  (∀ s : State, ∃ t, step s = .next t)

/-- R211: a fetched word that matches no row raises `UnknownOpcode` with the whole word, and `PC` stays at it. -/
def Obligations.UnmatchedWordRaisesUnknownOpcode : Prop :=
  ∀ (s : State) (w : Word), CanFetch s →
    w.toNat = (s.readByte s.pc.toNat).toNat * 256 + (s.readByte (s.pc.toNat + 1)).toNat →
    (∀ r ∈ opcodeTable, r.selects w = false) →
    ∃ t, step s = .next t ∧ Raised (.unknownOpcode w) s t

/-- R215: a step that raises a fault commits nothing: the state is exactly the state before it, plus the latch, and the
step reports that fault. -/
def Obligations.FaultingStepLeavesOnlyTheLatch : Prop :=
  ∀ (s t : State) (f : Fault), step s = .next t → s.fault = none → t.fault = some f →
    t = { s with fault := some f } ∧ stepReport s t = .fault f

/-- R218: once a fault is latched, every operation but `Reset` keeps that same fault, and after `Reset` there is none. -/
def Obligations.OnlyResetClearsTheFault : Prop :=
  (∀ (s t : State) (f : Fault) (o : Op), s.fault = some f → o ≠ .reset → applyOp o s = .next t → t.fault = some f) ∧
  (∀ s t : State, applyOp .reset s = .next t → t.fault = none)

/-- R35: `AWAIT` is set only by a `Step` that executes `LD VX,K`, and cleared only by `KeyDeliver` and `Reset`. -/
def Obligations.WaitIsSetAndClearedOnlyByItsOwners : Prop :=
  (∀ (s t : State) (o : Op), applyOp o s = .next t → s.awaiting = true → t.awaiting = false →
    o = .reset ∨ ∃ k, o = .keyDeliver k) ∧
  (∀ (s t : State) (o : Op), applyOp o s = .next t → s.awaiting = false → t.awaiting = true →
    o = .step ∧ ∃ x : Reg, decode (Memory.readWord s.mem s.pc.toNat) = .ok (.ldVxK x))

/-- R54: the bounds check, on natural numbers, reporting `max(base, 0x1000)`. -/
def Obligations.RangeCheckIsExact : Prop :=
  ∀ (base : Word) (n : Nat),
    ((n > 0 ∧ base.toNat + n - 1 > 0xFFF) →
      ∃ a : Word, a.toNat = max base.toNat 0x1000 ∧ checkRange base n = some (.memoryOutOfBounds a)) ∧
    (¬ (n > 0 ∧ base.toNat + n - 1 > 0xFFF) → checkRange base n = none)

/-- R62: an instruction stored by one step is what the next step fetches: after `LD [I],VX` over the two bytes that follow
it, the next step decodes `V0` as the high byte and `V1` as the low byte. -/
def Obligations.StoredInstructionIsFetchedNext : Prop :=
  ∀ (s : State) (x : Reg) (i : Instr), s.fault = none → s.awaiting = false → 1 ≤ x.val →
    s.pc.toNat ≤ 0xFFC → s.i.toNat = s.pc.toNat + 2 → s.i.toNat + x.val ≤ 0xFFF →
    decode (BitVec.ofNat 16 ((s.reg 0).toNat * 256 + (s.reg 1).toNat)) = .ok i →
    ∃ t, exec (.ldMemVx x) s = .next t ∧ step t = exec i t

/-! ## Reset, invariant, whole-machine rules -/

/-- R40: every state element right after `Reset`, whatever came before (the draw counter is the model's own and is not
spoken of). -/
def Obligations.ResetValues : Prop :=
  ∀ s : State, ∀ t : State, t = resetMachine s ∨ t = State.reset →
    (∀ r : Reg, t.reg r = 0) ∧ t.i = 0 ∧ t.pc = 0x0200 ∧ t.sp.val = 0 ∧ (∀ j : Fin 16, t.stack[j] = 0) ∧
    t.dt = 0 ∧ t.st = 0 ∧ t.soundOn = false ∧
    t.readBlock 0x000 40 =
      [0xF0, 0x90, 0x90, 0x90, 0xF0, 0x20, 0x60, 0x20, 0x20, 0x70, 0xF0, 0x10, 0xF0, 0x80, 0xF0, 0xF0, 0x10, 0xF0, 0x10, 0xF0,
       0x90, 0x90, 0xF0, 0x10, 0x10, 0xF0, 0x80, 0xF0, 0x10, 0xF0, 0xF0, 0x80, 0xF0, 0x90, 0xF0, 0xF0, 0x10, 0x20, 0x40, 0x40] ∧
    t.readBlock 0x028 40 =
      [0xF0, 0x90, 0xF0, 0x90, 0xF0, 0xF0, 0x90, 0xF0, 0x10, 0xF0, 0xF0, 0x90, 0xF0, 0x90, 0x90, 0xE0, 0x90, 0xE0, 0x90, 0xE0,
       0xF0, 0x80, 0x80, 0x80, 0xF0, 0xE0, 0x90, 0x90, 0x90, 0xE0, 0xF0, 0x80, 0xF0, 0x80, 0xF0, 0xF0, 0x80, 0xF0, 0x80, 0x80] ∧
    (∀ a : Nat, 0x050 ≤ a → a ≤ 0xFFF → t.readByte a = 0) ∧
    (∀ (px : Fin 64) (py : Fin 32), t.fb[py][px] = false) ∧ (∀ k : Fin 16, t.keys[k] = false) ∧
    t.awaiting = false ∧ t.kx = 0 ∧ t.fault = none

/-- R251: with nothing loaded, the first step after reset raises `UnknownOpcode(0x0000)` at 0x200. -/
def Obligations.FirstStepWithoutImageFaults : Prop :=
  ∃ t, step State.reset = .next t ∧ t.pc = 0x0200 ∧ Raised (.unknownOpcode 0x0000) State.reset t

/-- The invariant holds right after reset; memory's canonical form is the model's (log entry 5). -/
def Obligations.InvariantHoldsAtReset : Prop := Inv State.reset

/-- The invariant is kept by every step, from every state that meets it: memory stays canonical and inside 0x000..0xFFF,
`PC` stays at most 0x10FE and every stack slot at most 0x1000 (10_state R26), the core never waits and holds a fault at
once (93_implementation_defined U16), a latched fault agrees with the state. The canonical form is the model's (log
entry 5). -/
def Obligations.StepKeepsTheInvariant : Prop :=
  ∀ s t : State, Inv s → step s = .next t → Inv t

/-- The invariant is kept by each of the six operations of 60_exceptions R230, from every state that meets it. The
canonical form of memory is the model's (log entry 5), and `Load` may come at any time (log entry 8). -/
def Obligations.EveryOperationKeepsTheInvariant : Prop :=
  ∀ (o : Op) (s t : State), Inv s → applyOp o s = .next t → Inv t

/-- Every state that the six operations of 60_exceptions R230 can reach, in any interleaving (R107), meets the
invariant. Memory's canonical form is the model's (log entry 5), and `Load` may come at any time (log entry 8). -/
def Obligations.ReachableStatesMeetTheInvariant : Prop :=
  ∀ s : State, Reachable s → Inv s

/-- R22: only the six flag instructions write `VF` as a side effect, each exactly 0 or 1 when it commits; any other
instruction changes `VF` only by naming it as its destination. -/
def Obligations.OnlySixInstructionsWriteTheFlag : Prop :=
  (∀ (i : Instr) (s t : State), exec i s = .next t → writesFlag i = false → destination i ≠ some vf →
    t.reg vf = s.reg vf) ∧
  (∀ (i : Instr) (s t : State), exec i s = .next t → writesFlag i = true → s.fault = none → t.fault = none →
    t.reg vf = 0 ∨ t.reg vf = 1)

/-- 10_state R20, the column "written by", for instructions: which instructions may change each state element. -/
def Obligations.EachPartIsWrittenOnlyByItsInstructions : Prop :=
  ∀ (i : Instr) (s t : State), exec i s = .next t →
    (t.i ≠ s.i → (∃ nnn, i = .ldINnn nnn) ∨ (∃ x, i = .addIVx x) ∨ (∃ x, i = .ldFVx x)) ∧
    (t.stack ≠ s.stack → ∃ nnn, i = .callNnn nnn) ∧
    (t.sp ≠ s.sp → (∃ nnn, i = .callNnn nnn) ∨ i = .ret) ∧
    (t.dt ≠ s.dt → ∃ x, i = .ldDtVx x) ∧
    (t.st ≠ s.st → ∃ x, i = .ldStVx x) ∧
    (∀ a : Nat, t.readByte a ≠ s.readByte a → (∃ x, i = .ldBVx x) ∨ (∃ x, i = .ldMemVx x)) ∧
    (t.fb ≠ s.fb → i = .cls ∨ ∃ x y n, i = .drwVxVyN x y n) ∧
    t.keys = s.keys ∧
    (t.awaiting ≠ s.awaiting ∨ t.kx ≠ s.kx → ∃ x, i = .ldVxK x) ∧
    (t.draws ≠ s.draws → ∃ x nn, i = .rndVxNn x nn)

/-- R30, 10_state R41 (d): no instruction reads `ST`: two states that differ only in `ST` step to states that differ at
most in `ST`. Both steps take the same draw, since both states hold the same draw counter (R106; log entry 2). -/
def Obligations.SoundTimerIsNotReadByInstructions : Prop :=
  ∀ (s t : State) (b : Byte), step s = .next t →
    ∃ u, step { s with st := b } = .next u ∧ { u with st := t.st } = t

/-- 20_memory R50 in the model's form: two canonical memories that read alike at every address are the same list. -/
def Obligations.CanonicalMemoriesThatReadAlikeAreEqual : Prop :=
  ∀ m m' : List Host.Cell, Memory.wf m = true → Memory.wf m' = true →
    (∀ a : Nat, Memory.read m a = Memory.read m' a) → m = m'

/-! ## Control flow -/

/-- R121: `RET`. -/
def Obligations.RetPopsOrUnderflows : Prop :=
  EncodedAs 0x00EE 0xFFFF (fun _ => .ret) ∧
  (∀ (s : State) (j : Fin 16), s.sp.val = j.val + 1 →
    ∃ t, exec .ret s = .next t ∧ t.sp.val = j.val ∧ t.pc = s.stack[j] ∧ t.stack = s.stack ∧ FrameBut [.stack] s t) ∧
  (∀ s : State, s.sp.val = 0 → ∃ t, exec .ret s = .next t ∧ Raised .stackUnderflow s t)

/-- R122: `JP NNN`; a jump to itself leaves the whole state unchanged; a jump to 0xFFF is accepted and the next fetch
faults. -/
def Obligations.JpJumps : Prop :=
  EncodedAs 0x1000 0xF000 (fun w => .jpNnn (w.extractLsb' 0 12)) ∧
  (∀ (nnn : BitVec 12) (s : State), ∃ t, exec (.jpNnn nnn) s = .next t ∧ t.pc.toNat = nnn.toNat ∧ FrameBut [] s t) ∧
  (∀ (nnn : BitVec 12) (s : State), s.pc.toNat = nnn.toNat → exec (.jpNnn nnn) s = .next s) ∧
  (∀ s : State, s.fault = none → s.awaiting = false →
    ∃ t u, exec (.jpNnn 0xFFF) s = .next t ∧ step t = .next u ∧ Raised (.memoryOutOfBounds 0x1000) t u)

/-- R123: `CALL NNN` pushes the address after the call, or overflows. -/
def Obligations.CallPushesOrOverflows : Prop :=
  EncodedAs 0x2000 0xF000 (fun w => .callNnn (w.extractLsb' 0 12)) ∧
  (∀ (nnn : BitVec 12) (s : State) (j : Fin 16), s.sp.val = j.val →
    ∃ t, exec (.callNnn nnn) s = .next t ∧ t.stack[j] = s.pc + 2 ∧ (∀ k : Fin 16, k ≠ j → t.stack[k] = s.stack[k]) ∧
      t.sp.val = j.val + 1 ∧ t.pc.toNat = nnn.toNat ∧ FrameBut [.stack] s t) ∧
  (∀ (nnn : BitVec 12) (s : State), s.sp.val = 16 →
    ∃ t, exec (.callNnn nnn) s = .next t ∧ Raised .stackOverflow s t)

/-- R129: `JP V0,NNN`: the sum is not reduced to 12 bits; a sum above 0xFFE is kept, and the next fetch faults with it
(with 0x1000 for a sum of 0xFFF). -/
def Obligations.JpV0AddsV0 : Prop :=
  EncodedAs 0xB000 0xF000 (fun w => .jpV0Nnn (w.extractLsb' 0 12)) ∧
  (∀ (nnn : BitVec 12) (s : State),
    ∃ t, exec (.jpV0Nnn nnn) s = .next t ∧ t.pc.toNat = nnn.toNat + (s.reg 0).toNat ∧ FrameBut [] s t) ∧
  (∀ (nnn : BitVec 12) (s : State), s.fault = none → s.awaiting = false → nnn.toNat + (s.reg 0).toNat > 0xFFE →
    ∃ (t u : State) (a : Word), exec (.jpV0Nnn nnn) s = .next t ∧ step t = .next u ∧
      a.toNat = max (nnn.toNat + (s.reg 0).toNat) 0x1000 ∧ Raised (.memoryOutOfBounds a) t u)

/-- R104 and the property E3 of 95_test_vectors: a `CALL` and then a `RET` resume after the call with the stack pointer as
it was; nothing but the one slot that `CALL` wrote differs, and no entry in use. -/
def Obligations.CallThenRetResumesAfterTheCall : Prop :=
  ∀ (nnn : BitVec 12) (s : State), s.sp.val < 16 →
    ∃ t u, exec (.callNnn nnn) s = .next t ∧ exec .ret t = .next u ∧ t.fault = s.fault ∧ u.pc = s.pc + 2 ∧
      u.sp = s.sp ∧ (∀ k : Fin 16, k.val ≠ s.sp.val → u.stack[k] = s.stack[k]) ∧ FrameBut [.stack] s u

/-- R124, R125, R126, R127: the four register skips. -/
def Obligations.RegisterSkips : Prop :=
  EncodedAs 0x3000 0xF000 (fun w => .seVxNn (w.extractLsb' 8 4).toFin (w.extractLsb' 0 8)) ∧
  EncodedAs 0x4000 0xF000 (fun w => .sneVxNn (w.extractLsb' 8 4).toFin (w.extractLsb' 0 8)) ∧
  EncodedAs 0x5000 0xF00F (fun w => .seVxVy (w.extractLsb' 8 4).toFin (w.extractLsb' 4 4).toFin) ∧
  EncodedAs 0x9000 0xF00F (fun w => .sneVxVy (w.extractLsb' 8 4).toFin (w.extractLsb' 4 4).toFin) ∧
  (∀ w : Word, (w.toNat / 4096 = 5 ∨ w.toNat / 4096 = 9) → w.toNat % 16 ≠ 0 → decode w = .error (.unknownOpcode w)) ∧
  (∀ (x y : Reg) (nn : Byte) (s : State),
    (∃ t, exec (.seVxNn x nn) s = .next t ∧ t.pc = (if s.reg x = nn then s.pc + 4 else s.pc + 2) ∧ FrameBut [] s t) ∧
    (∃ t, exec (.sneVxNn x nn) s = .next t ∧ t.pc = (if s.reg x = nn then s.pc + 2 else s.pc + 4) ∧ FrameBut [] s t) ∧
    (∃ t, exec (.seVxVy x y) s = .next t ∧ t.pc = (if s.reg x = s.reg y then s.pc + 4 else s.pc + 2) ∧ FrameBut [] s t) ∧
    (∃ t, exec (.sneVxVy x y) s = .next t ∧ t.pc = (if s.reg x = s.reg y then s.pc + 2 else s.pc + 4) ∧ FrameBut [] s t))

/-! ## Load, arithmetic, logic, shift, random -/

/-- R140, R142, R200: `LD VX,NN`, `LD VX,VY`, `LD VX,DT`. -/
def Obligations.RegisterLoads : Prop :=
  EncodedAs 0x6000 0xF000 (fun w => .ldVxNn (w.extractLsb' 8 4).toFin (w.extractLsb' 0 8)) ∧
  EncodedAs 0x8000 0xF00F (fun w => .ldVxVy (w.extractLsb' 8 4).toFin (w.extractLsb' 4 4).toFin) ∧
  EncodedAs 0xF007 0xF0FF (fun w => .ldVxDt (w.extractLsb' 8 4).toFin) ∧
  (∀ (x y : Reg) (nn : Byte) (s : State),
    (∃ t, exec (.ldVxNn x nn) s = .next t ∧ t.reg x = nn ∧ t.pc = s.pc + 2 ∧ SameRegsBut [x] s t ∧ FrameBut [.regs] s t) ∧
    (∃ t, exec (.ldVxVy x y) s = .next t ∧ t.reg x = s.reg y ∧ t.pc = s.pc + 2 ∧ SameRegsBut [x] s t ∧
      FrameBut [.regs] s t) ∧
    (∃ t, exec (.ldVxDt x) s = .next t ∧ t.reg x = s.dt ∧ t.pc = s.pc + 2 ∧ SameRegsBut [x] s t ∧ FrameBut [.regs] s t))

/-- R141: `ADD VX,NN` wraps and writes no flag. -/
def Obligations.AddImmediateWrapsWithoutFlag : Prop :=
  EncodedAs 0x7000 0xF000 (fun w => .addVxNn (w.extractLsb' 8 4).toFin (w.extractLsb' 0 8)) ∧
  (∀ (x : Reg) (nn : Byte) (s : State),
    ∃ t, exec (.addVxNn x nn) s = .next t ∧ (t.reg x).toNat = ((s.reg x).toNat + nn.toNat) % 256 ∧ t.pc = s.pc + 2 ∧
      SameRegsBut [x] s t ∧ FrameBut [.regs] s t)

/-- R143, R144, R145: `OR`, `AND`, `XOR`, bit by bit; no flag is written. -/
def Obligations.LogicWorksBitByBit : Prop :=
  EncodedAs 0x8001 0xF00F (fun w => .orVxVy (w.extractLsb' 8 4).toFin (w.extractLsb' 4 4).toFin) ∧
  EncodedAs 0x8002 0xF00F (fun w => .andVxVy (w.extractLsb' 8 4).toFin (w.extractLsb' 4 4).toFin) ∧
  EncodedAs 0x8003 0xF00F (fun w => .xorVxVy (w.extractLsb' 8 4).toFin (w.extractLsb' 4 4).toFin) ∧
  (∀ (x y : Reg) (s : State),
    (∃ t, exec (.orVxVy x y) s = .next t ∧
      (∀ j, (t.reg x).getLsbD j = ((s.reg x).getLsbD j || (s.reg y).getLsbD j)) ∧ t.pc = s.pc + 2 ∧
      SameRegsBut [x] s t ∧ FrameBut [.regs] s t) ∧
    (∃ t, exec (.andVxVy x y) s = .next t ∧
      (∀ j, (t.reg x).getLsbD j = ((s.reg x).getLsbD j && (s.reg y).getLsbD j)) ∧ t.pc = s.pc + 2 ∧
      SameRegsBut [x] s t ∧ FrameBut [.regs] s t) ∧
    (∃ t, exec (.xorVxVy x y) s = .next t ∧
      (∀ j, (t.reg x).getLsbD j = ((s.reg x).getLsbD j ^^ (s.reg y).getLsbD j)) ∧ t.pc = s.pc + 2 ∧
      SameRegsBut [x] s t ∧ FrameBut [.regs] s t))

/-- R146: `ADD VX,VY`: the sum modulo 256, then the carry in `VF`, which wins when `X = 0xF`. -/
def Obligations.AddSetsTheCarry : Prop :=
  EncodedAs 0x8004 0xF00F (fun w => .addVxVy (w.extractLsb' 8 4).toFin (w.extractLsb' 4 4).toFin) ∧
  (∀ (x y : Reg) (s : State), ∃ t, exec (.addVxVy x y) s = .next t ∧
    (x ≠ vf → (t.reg x).toNat = ((s.reg x).toNat + (s.reg y).toNat) % 256) ∧
    t.reg vf = (if (s.reg x).toNat + (s.reg y).toNat > 255 then 1 else 0) ∧
    t.pc = s.pc + 2 ∧ SameRegsBut [x, vf] s t ∧ FrameBut [.regs] s t)

/-- R147, R149: `SUB` and `SUBN`: the difference modulo 256, then the complement of the borrow in `VF`. -/
def Obligations.SubtractionsSetNotBorrow : Prop :=
  EncodedAs 0x8005 0xF00F (fun w => .subVxVy (w.extractLsb' 8 4).toFin (w.extractLsb' 4 4).toFin) ∧
  EncodedAs 0x8007 0xF00F (fun w => .subnVxVy (w.extractLsb' 8 4).toFin (w.extractLsb' 4 4).toFin) ∧
  (∀ (x y : Reg) (s : State), ∃ t, exec (.subVxVy x y) s = .next t ∧
    (x ≠ vf → ((t.reg x).toNat : Int) = ((s.reg x).toNat - (s.reg y).toNat : Int) % 256) ∧
    t.reg vf = (if (s.reg x).toNat ≥ (s.reg y).toNat then 1 else 0) ∧
    t.pc = s.pc + 2 ∧ SameRegsBut [x, vf] s t ∧ FrameBut [.regs] s t) ∧
  (∀ (x y : Reg) (s : State), ∃ t, exec (.subnVxVy x y) s = .next t ∧
    (x ≠ vf → ((t.reg x).toNat : Int) = ((s.reg y).toNat - (s.reg x).toNat : Int) % 256) ∧
    t.reg vf = (if (s.reg y).toNat ≥ (s.reg x).toNat then 1 else 0) ∧
    t.pc = s.pc + 2 ∧ SameRegsBut [x, vf] s t ∧ FrameBut [.regs] s t)

/-- R148, R150: `SHR` and `SHL` move `V[X]` by one, then write the bit shifted out to `VF`; the `Y` of the word is
ignored. -/
def Obligations.ShiftsMoveByOne : Prop :=
  EncodedAs 0x8006 0xF00F (fun w => .shrVx (w.extractLsb' 8 4).toFin) ∧
  EncodedAs 0x800E 0xF00F (fun w => .shlVx (w.extractLsb' 8 4).toFin) ∧
  (∀ (x : Reg) (s : State), ∃ t, exec (.shrVx x) s = .next t ∧
    (x ≠ vf → (t.reg x).toNat = (s.reg x).toNat / 2) ∧ (t.reg vf).toNat = (s.reg x).toNat % 2 ∧
    t.pc = s.pc + 2 ∧ SameRegsBut [x, vf] s t ∧ FrameBut [.regs] s t) ∧
  (∀ (x : Reg) (s : State), ∃ t, exec (.shlVx x) s = .next t ∧
    (x ≠ vf → (t.reg x).toNat = (s.reg x).toNat * 2 % 256) ∧ (t.reg vf).toNat = (s.reg x).toNat / 128 ∧
    t.pc = s.pc + 2 ∧ SameRegsBut [x, vf] s t ∧ FrameBut [.regs] s t)

/-- R151, R152: `RND VX,NN` masks a fresh drawn byte, whatever it is. The draw counter is the model's own (log entry 2);
nothing is said of the byte itself. -/
def Obligations.RandomIsMasked : Prop :=
  EncodedAs 0xC000 0xF000 (fun w => .rndVxNn (w.extractLsb' 8 4).toFin (w.extractLsb' 0 8)) ∧
  (∀ (x : Reg) (nn : Byte) (s : State), ∃ t, exec (.rndVxNn x nn) s = .next t ∧
    t.reg x = Config.draw8 s.draws &&& nn ∧ t.draws = s.draws + 1 ∧ (∀ j, nn.getLsbD j = false → (t.reg x).getLsbD j = false) ∧
    t.pc = s.pc + 2 ∧ SameRegsBut [x] s t ∧ FrameBut [.regs, .draws] s t)

/-! ## Index register and memory -/

/-- R160, R162, R164: `LD I,NNN`, `ADD I,VX` (modulo 2^16), `LD F,VX` (low nibble, five bytes a glyph from 0x000). -/
def Obligations.IndexRegisterWrites : Prop :=
  EncodedAs 0xA000 0xF000 (fun w => .ldINnn (w.extractLsb' 0 12)) ∧
  EncodedAs 0xF01E 0xF0FF (fun w => .addIVx (w.extractLsb' 8 4).toFin) ∧
  EncodedAs 0xF029 0xF0FF (fun w => .ldFVx (w.extractLsb' 8 4).toFin) ∧
  (∀ (nnn : BitVec 12) (x : Reg) (s : State),
    (∃ t, exec (.ldINnn nnn) s = .next t ∧ t.i.toNat = nnn.toNat ∧ t.pc = s.pc + 2 ∧ FrameBut [.index] s t) ∧
    (∃ t, exec (.addIVx x) s = .next t ∧ t.i.toNat = (s.i.toNat + (s.reg x).toNat) % 65536 ∧ t.pc = s.pc + 2 ∧
      FrameBut [.index] s t) ∧
    (∃ t, exec (.ldFVx x) s = .next t ∧ t.i.toNat = 5 * ((s.reg x).toNat % 16) ∧ t.pc = s.pc + 2 ∧
      FrameBut [.index] s t))

/-- R166: `LD B,VX` stores hundreds, tens and ones at `I`, `I+1`, `I+2`, or faults and stores nothing. -/
def Obligations.BcdStore : Prop :=
  EncodedAs 0xF033 0xF0FF (fun w => .ldBVx (w.extractLsb' 8 4).toFin) ∧
  (∀ (x : Reg) (s : State), s.i.toNat + 2 ≤ 0xFFF → ∃ t, exec (.ldBVx x) s = .next t ∧
    (t.readByte s.i.toNat).toNat = (s.reg x).toNat / 100 ∧
    (t.readByte (s.i.toNat + 1)).toNat = (s.reg x).toNat / 10 % 10 ∧
    (t.readByte (s.i.toNat + 2)).toNat = (s.reg x).toNat % 10 ∧
    SameBytesBut s.i.toNat 3 s t ∧ t.pc = s.pc + 2 ∧ FrameBut [.memory] s t) ∧
  (∀ (x : Reg) (s : State), s.i.toNat + 2 > 0xFFF → ∃ t, exec (.ldBVx x) s = .next t ∧ RaisedOutOfBounds s.i s t)

/-- R168: `LD [I],VX` stores `V0` through `VX` at `I` and up, or faults and stores nothing. -/
def Obligations.RegisterBlockStore : Prop :=
  EncodedAs 0xF055 0xF0FF (fun w => .ldMemVx (w.extractLsb' 8 4).toFin) ∧
  (∀ (x : Reg) (s : State), s.i.toNat + x.val ≤ 0xFFF → ∃ t, exec (.ldMemVx x) s = .next t ∧
    (∀ k : Reg, k.val ≤ x.val → t.readByte (s.i.toNat + k.val) = s.reg k) ∧
    SameBytesBut s.i.toNat (x.val + 1) s t ∧ t.pc = s.pc + 2 ∧ FrameBut [.memory] s t) ∧
  (∀ (x : Reg) (s : State), s.i.toNat + x.val > 0xFFF → ∃ t, exec (.ldMemVx x) s = .next t ∧ RaisedOutOfBounds s.i s t)

/-- R170: `LD VX,[I]` loads `V0` through `VX` from `I` and up, or faults and loads nothing. -/
def Obligations.RegisterBlockLoad : Prop :=
  EncodedAs 0xF065 0xF0FF (fun w => .ldVxMem (w.extractLsb' 8 4).toFin) ∧
  (∀ (x : Reg) (s : State), s.i.toNat + x.val ≤ 0xFFF → ∃ t, exec (.ldVxMem x) s = .next t ∧
    (∀ k : Reg, k.val ≤ x.val → t.reg k = s.readByte (s.i.toNat + k.val)) ∧
    (∀ k : Reg, x.val < k.val → t.reg k = s.reg k) ∧ t.pc = s.pc + 2 ∧ FrameBut [.regs] s t) ∧
  (∀ (x : Reg) (s : State), s.i.toNat + x.val > 0xFFF → ∃ t, exec (.ldVxMem x) s = .next t ∧ RaisedOutOfBounds s.i s t)

/-- 43_index_memory R168 and R170 together: storing `V0..VX` and loading them back changes no register and leaves `I`;
and however the registers (or anything else but memory and `I`) change in between, the load brings back `V0..VX` as they
were stored. Both instructions commit: neither raises a fault, and each advances `PC`. -/
def Obligations.StoreThenLoadRestoresRegisters : Prop :=
  ∀ (x : Reg) (s : State), s.i.toNat + x.val ≤ 0xFFF →
    ∃ t, exec (.ldMemVx x) s = .next t ∧ t.fault = s.fault ∧ t.pc = s.pc + 2 ∧
      (∃ u, exec (.ldVxMem x) t = .next u ∧ u.fault = s.fault ∧ u.pc = s.pc + 4 ∧ u.i = s.i ∧
        ∀ r : Reg, u.reg r = s.reg r) ∧
      (∀ m : State, m.i = s.i → (∀ a : Nat, m.readByte a = t.readByte a) →
        ∃ u, exec (.ldVxMem x) m = .next u ∧ u.fault = m.fault ∧ u.pc = m.pc + 2 ∧ u.i = s.i ∧
          (∀ k : Reg, k.val ≤ x.val → u.reg k = s.reg k) ∧ (∀ k : Reg, x.val < k.val → u.reg k = m.reg k))

/-! ## Display -/

/-- R180: `CLS` turns all 2048 pixels off and changes nothing else. -/
def Obligations.ClsClearsTheScreen : Prop :=
  EncodedAs 0x00E0 0xFFFF (fun _ => .cls) ∧
  (∀ s : State, ∃ t, exec .cls s = .next t ∧ (∀ (px : Fin 64) (py : Fin 32), t.fb[py][px] = false) ∧ t.pc = s.pc + 2 ∧
    FrameBut [.display] s t)

/-- R182: `DRW VX,VY,N` XORs the visible sprite bits into the screen, pixel by pixel, and `VF` says whether a pixel that
was on was inverted; out of range it faults and draws nothing. -/
def Obligations.DrwXorsTheSprite : Prop :=
  EncodedAs 0xD000 0xF000
    (fun w => .drwVxVyN (w.extractLsb' 8 4).toFin (w.extractLsb' 4 4).toFin (w.extractLsb' 0 4).toNat) ∧
  (∀ (x y : Reg) (n : Nat) (s : State), n = 0 ∨ s.i.toNat + n - 1 ≤ 0xFFF → ∃ t, exec (.drwVxVyN x y n) s = .next t ∧
    (∀ (px : Fin 64) (py : Fin 32), t.fb[py][px] = (s.fb[py][px] ^^ spriteOn s x y n px.val py.val)) ∧
    ((∃ (px : Fin 64) (py : Fin 32), spriteOn s x y n px.val py.val = true ∧ s.fb[py][px] = true) → t.reg vf = 1) ∧
    ((∀ (px : Fin 64) (py : Fin 32), spriteOn s x y n px.val py.val = true → s.fb[py][px] = false) → t.reg vf = 0) ∧
    t.pc = s.pc + 2 ∧ SameRegsBut [vf] s t ∧ FrameBut [.regs, .display] s t) ∧
  (∀ (x y : Reg) (n : Nat) (s : State), n > 0 → s.i.toNat + n - 1 > 0xFFF →
    ∃ t, exec (.drwVxVyN x y n) s = .next t ∧ RaisedOutOfBounds s.i s t)

/-- R183: the same sprite drawn twice at the same coordinates (the first draw's flag has not moved the origin) restores
the screen; the second draw reports 1 exactly when the first turned a pixel on; over a blank region the first reports 0,
and the second reports 1 exactly when the sprite has a visible 1 bit. -/
def Obligations.DrawingTwiceRestoresTheScreen : Prop :=
  ∀ (x y : Reg) (n : Nat) (s t : State), n = 0 ∨ s.i.toNat + n - 1 ≤ 0xFFF → exec (.drwVxVyN x y n) s = .next t →
    (t.reg x).toNat % 64 = (s.reg x).toNat % 64 → (t.reg y).toNat % 32 = (s.reg y).toNat % 32 →
    ∃ u, exec (.drwVxVyN x y n) t = .next u ∧ u.fb = s.fb ∧ (u.reg vf = 0 ∨ u.reg vf = 1) ∧
      (u.reg vf = 1 ↔ ∃ (px : Fin 64) (py : Fin 32), s.fb[py][px] = false ∧ t.fb[py][px] = true) ∧
      ((∀ (px : Fin 64) (py : Fin 32), spriteOn s x y n px.val py.val = true → s.fb[py][px] = false) →
        t.reg vf = 0 ∧ (u.reg vf = 1 ↔ ∃ (px : Fin 64) (py : Fin 32), spriteOn s x y n px.val py.val = true))

/-! ## Keypad and timers -/

/-- R190, R192: `SKP` and `SKNP` test the key that the low nibble of `V[X]` numbers. After reset and until a `SetKeys` all
keys read released (reset leaves them so, and every operation but `SetKeys` keeps them so), and `SKNP` then always
skips. -/
def Obligations.KeySkips : Prop :=
  EncodedAs 0xE09E 0xF0FF (fun w => .skpVx (w.extractLsb' 8 4).toFin) ∧
  EncodedAs 0xE0A1 0xF0FF (fun w => .sknpVx (w.extractLsb' 8 4).toFin) ∧
  (∀ (x : Reg) (s : State) (k : Fin 16), k.val = (s.reg x).toNat % 16 →
    (∃ t, exec (.skpVx x) s = .next t ∧ t.pc = (if s.keys[k] = true then s.pc + 4 else s.pc + 2) ∧ FrameBut [] s t) ∧
    (∃ t, exec (.sknpVx x) s = .next t ∧ t.pc = (if s.keys[k] = true then s.pc + 2 else s.pc + 4) ∧ FrameBut [] s t)) ∧
  (∀ x : Reg, ∃ t, exec (.sknpVx x) State.reset = .next t ∧ t.pc = State.reset.pc + 4) ∧
  (∀ j : Fin 16, State.reset.keys[j] = false) ∧ (∀ (s : State) (j : Fin 16), (resetMachine s).keys[j] = false) ∧
  (∀ (o : Op) (s t : State), (∀ k, o ≠ .setKeys k) → (∀ j : Fin 16, s.keys[j] = false) → applyOp o s = .next t →
    ∀ j : Fin 16, t.keys[j] = false) ∧
  (∀ (x : Reg) (s : State), (∀ j : Fin 16, s.keys[j] = false) →
    ∃ t, exec (.sknpVx x) s = .next t ∧ t.pc = s.pc + 4 ∧ FrameBut [] s t)

/-- R194: `LD VX,K` only starts the wait and advances; steps then report `waiting` and do nothing, ticks go on; the delivered key lands in
`V[X]` and the wait ends. -/
def Obligations.KeyWaitStartsAndCompletes : Prop :=
  EncodedAs 0xF00A 0xF0FF (fun w => .ldVxK (w.extractLsb' 8 4).toFin) ∧
  (∀ (x : Reg) (s : State), ∃ t, exec (.ldVxK x) s = .next t ∧ t.awaiting = true ∧ t.kx = x ∧ t.pc = s.pc + 2 ∧
    FrameBut [.wait] s t ∧ step t = .next t ∧ (s.fault = none → stepReport t t = .waiting) ∧ (tickTimers t).dt.toNat = s.dt.toNat - 1 ∧
    (tickTimers t).st.toNat = s.st.toNat - 1 ∧
    ∀ k : BitVec 4, ((keyDeliver k t).reg x).toNat = k.toNat ∧ (keyDeliver k t).awaiting = false ∧
      (keyDeliver k t).pc = s.pc + 2)

/-- R196: `KeyDeliver(k)` writes the key to the awaited register and ends the wait, changing nothing else; with no wait it
changes nothing; nothing else but `Reset` ends a wait. -/
def Obligations.KeyDeliverCompletesTheWait : Prop :=
  (∀ (k : BitVec 4) (s : State), s.awaiting = true →
    ((keyDeliver k s).reg s.kx).toNat = k.toNat ∧ SameRegsBut [s.kx] s (keyDeliver k s) ∧
    (keyDeliver k s).awaiting = false ∧ (keyDeliver k s).kx = s.kx ∧ (keyDeliver k s).pc = s.pc ∧
    FrameBut [.regs, .wait] s (keyDeliver k s)) ∧
  (∀ (k : BitVec 4) (s : State), s.awaiting = false → keyDeliver k s = s) ∧
  (∀ (s t : State) (o : Op), applyOp o s = .next t → s.awaiting = true → t.awaiting = false →
    o = .reset ∨ ∃ k, o = .keyDeliver k)

/-- R201, R202: `LD DT,VX` and `LD ST,VX`; the sound output follows `ST` at once. -/
def Obligations.TimerWrites : Prop :=
  EncodedAs 0xF015 0xF0FF (fun w => .ldDtVx (w.extractLsb' 8 4).toFin) ∧
  EncodedAs 0xF018 0xF0FF (fun w => .ldStVx (w.extractLsb' 8 4).toFin) ∧
  (∀ (x : Reg) (s : State),
    (∃ t, exec (.ldDtVx x) s = .next t ∧ t.dt = s.reg x ∧ t.pc = s.pc + 2 ∧ FrameBut [.delayTimer] s t) ∧
    (∃ t, exec (.ldStVx x) s = .next t ∧ t.st = s.reg x ∧ (t.soundOn = true ↔ s.reg x ≠ 0) ∧ t.pc = s.pc + 2 ∧
      FrameBut [.soundTimer] s t))

/-- R203: one tick counts each timer down by one, not below 0, in every state, and changes nothing else. -/
def Obligations.TickCountsBothTimersDown : Prop :=
  ∀ s : State, (tickTimers s).dt.toNat = s.dt.toNat - 1 ∧ (tickTimers s).st.toNat = s.st.toNat - 1 ∧
    (tickTimers s).pc = s.pc ∧ FrameBut [.delayTimer, .soundTimer] s (tickTimers s)

/-! ## The host's operations -/

/-- R256, R257: `Load` copies an image of at most 3584 bytes to 0x200 and up and changes nothing else, and rejects a longer
one without writing a byte or latching a fault. -/
def Obligations.LoadCopiesOrRejects : Prop :=
  (∀ (image : List Byte) (s : State), image.length ≤ 3584 →
    (load image s).1 = .ok ∧
    (∀ (j : Nat) (h : j < image.length), (load image s).2.readByte (0x200 + j) = image[j]) ∧
    SameBytesBut 0x200 image.length s (load image s).2 ∧ (load image s).2.pc = s.pc ∧
    FrameBut [.memory] s (load image s).2) ∧
  (∀ (image : List Byte) (s : State), image.length > 3584 → load image s = (.imageTooLarge, s))

/-- 60_exceptions R230, the row of `SetKeys`: key flag `j` takes bit `j`, and nothing else changes. -/
def Obligations.SetKeysWritesTheFlags : Prop :=
  ∀ (k : BitVec 16) (s : State), (∀ j : Fin 16, (setKeys k s).keys[j] = k.getLsbD j.val) ∧
    (setKeys k s).pc = s.pc ∧ FrameBut [.keys] s (setKeys k s)
end

