-- ==== Sys2Proof/Laws/Encoding.lean ====
section
/-! SUPPORT. The fields of an instruction word as numbers (30_encoding R71), for words given as numbers. -/

namespace Sys2Proof

theorem fieldOp_toNat (w : Word) : (fieldOp w).toNat = w.toNat / 4096 := by
  have := w.isLt
  simp only [fieldOp, BitVec.extractLsb'_toNat, Nat.shiftRight_eq_div_pow]
  omega

theorem fieldX_val (w : Word) : (fieldX w).val = w.toNat / 256 % 16 := by
  simp only [fieldX, BitVec.val_toFin, BitVec.extractLsb'_toNat, Nat.shiftRight_eq_div_pow]

theorem fieldY_val (w : Word) : (fieldY w).val = w.toNat / 16 % 16 := by
  simp only [fieldY, BitVec.val_toFin, BitVec.extractLsb'_toNat, Nat.shiftRight_eq_div_pow]

theorem fieldN_toNat (w : Word) : (fieldN w).toNat = w.toNat % 16 := by
  simp only [fieldN, BitVec.extractLsb'_toNat, Nat.shiftRight_eq_div_pow]
  omega

theorem fieldNN_toNat (w : Word) : (fieldNN w).toNat = w.toNat % 256 := by
  simp only [fieldNN, BitVec.extractLsb'_toNat, Nat.shiftRight_eq_div_pow]
  omega

theorem fieldNNN_toNat (w : Word) : (fieldNNN w).toNat = w.toNat % 4096 := by
  simp only [fieldNNN, BitVec.extractLsb'_toNat, Nat.shiftRight_eq_div_pow]
  omega

/-- The primary nibble of a word given as a number. -/
theorem fieldOp_ofNat (n k : Nat) (hn : n < 65536) (hk : n / 4096 = k) :
    fieldOp (BitVec.ofNat 16 n) = BitVec.ofNat 4 k := by
  apply BitVec.eq_of_toNat_eq
  rw [fieldOp_toNat, BitVec.toNat_ofNat, BitVec.toNat_ofNat]
  omega

/-- `X` of a word given as a number. -/
theorem fieldX_ofNat (n : Nat) (x : Reg) (hx : n / 256 % 16 = x.val) : fieldX (BitVec.ofNat 16 n) = x := by
  apply Fin.ext
  rw [fieldX_val, BitVec.toNat_ofNat]
  omega

/-- `Y` of a word given as a number. -/
theorem fieldY_ofNat (n : Nat) (y : Reg) (hy : n / 16 % 16 = y.val) : fieldY (BitVec.ofNat 16 n) = y := by
  apply Fin.ext
  rw [fieldY_val, BitVec.toNat_ofNat]
  omega

/-- `N` of a word given as a number. -/
theorem fieldN_ofNat (n k : Nat) (hk : n % 16 = k) : fieldN (BitVec.ofNat 16 n) = BitVec.ofNat 4 k := by
  apply BitVec.eq_of_toNat_eq
  rw [fieldN_toNat, BitVec.toNat_ofNat, BitVec.toNat_ofNat]
  omega

/-- `NN` of a word given as a number. -/
theorem fieldNN_ofNat (n k : Nat) (hk : n % 256 = k) : fieldNN (BitVec.ofNat 16 n) = BitVec.ofNat 8 k := by
  apply BitVec.eq_of_toNat_eq
  rw [fieldNN_toNat, BitVec.toNat_ofNat, BitVec.toNat_ofNat]
  omega

/-- `NNN` of a word given as a number. -/
theorem fieldNNN_ofNat (n k : Nat) (hk : n % 4096 = k) : fieldNNN (BitVec.ofNat 16 n) = BitVec.ofNat 12 k := by
  apply BitVec.eq_of_toNat_eq
  rw [fieldNNN_toNat, BitVec.toNat_ofNat, BitVec.toNat_ofNat]
  omega

/-- A word is put together again from its fields `op`, `X` and `NN`. -/
theorem word_eq_op_x_nn (w : Word) :
    w = BitVec.ofNat 16 ((fieldOp w).toNat * 4096 + (fieldX w).val * 256 + (fieldNN w).toNat) := by
  apply BitVec.eq_of_toNat_eq
  have := w.isLt
  rw [fieldOp_toNat, fieldX_val, fieldNN_toNat, BitVec.toNat_ofNat]
  omega

/-- A mask that keeps bits 15..12 keeps `op`: for a masked word that is known, its `op` is known (R76). -/
theorem fieldOp_and (w m : Word) (hm : fieldOp m = 0xF#4) : fieldOp (w &&& m) = fieldOp w := by
  rw [fieldOp, BitVec.extractLsb'_and, ← fieldOp, ← fieldOp, hm]
  exact BitVec.and_allOnes

/-- A mask that keeps bits 3..0 keeps `N` (R76). -/
theorem fieldN_and (w m : Word) (hm : fieldN m = 0xF#4) : fieldN (w &&& m) = fieldN w := by
  rw [fieldN, BitVec.extractLsb'_and, ← fieldN, ← fieldN, hm]
  exact BitVec.and_allOnes

/-- A mask that keeps bits 7..0 keeps `NN` (R76). -/
theorem fieldNN_and (w m : Word) (hm : fieldNN m = 0xFF#8) : fieldNN (w &&& m) = fieldNN w := by
  rw [fieldNN, BitVec.extractLsb'_and, ← fieldNN, ← fieldNN, hm]
  exact BitVec.and_allOnes

/-- The decoder's only error for a word is `unknownOpcode` with that word (R74). -/
theorem decode_error (w : Word) (e : DecodeError) (h : decode w = .error e) : e = .unknownOpcode w := by
  unfold decode decodeFamily0 decodeFamily8 decodeFamilyE decodeFamilyF at h
  split at h <;> try split at h
  all_goals first | (cases h; rfl) | cases h

end Sys2Proof
end

