-- ==== Sys2Proof/Laws/Framebuffer.lean ====
section
/-! SUPPORT. What the blitter does, pixel by pixel: the loops of 44_display R182 leave each pixel of the grid XORed with
the sprite's bit for it, and the collision flag says whether a pixel that was on met a 1 bit. -/

namespace Sys2Proof.Machine

theorem Framebuffer.pixel_flip (fb : Framebuffer) (x y u v : Nat) :
    Framebuffer.pixel (Framebuffer.flip fb x y) u v =
      if u = x ∧ v = y ∧ x < 64 ∧ y < 32 then !Framebuffer.pixel fb u v else Framebuffer.pixel fb u v := by
  unfold Framebuffer.flip Framebuffer.pixel
  by_cases h : x < 64 ∧ y < 32
  · by_cases hu : u < 64 ∧ v < 32
    · rw [dif_pos h]
      simp only [dif_pos hu, Vector.getElem_set]
      by_cases hy : y = v
      · subst hy
        simp only [Vector.getElem_set, if_true]
        by_cases hx : x = u
        · subst hx; simp [h]
        · simp [hx, Ne.symm hx]
      · simp [hy, Ne.symm hy]
    · rw [dif_neg hu]
      have : ¬ (u = x ∧ v = y ∧ x < 64 ∧ y < 32) := by omega
      simp [this, hu]
  · have : ¬ (u = x ∧ v = y ∧ x < 64 ∧ y < 32) := by omega
    rw [dif_neg h, if_neg this]

@[simp] theorem Framebuffer.pixel_blank (x y : Nat) : Framebuffer.pixel Framebuffer.blank x y = false := by
  simp [Framebuffer.pixel, Framebuffer.blank]

/-- Two grids with the same pixels are the same grid. -/
theorem Framebuffer.ext_pixel (f g : Framebuffer)
    (h : ∀ x y, x < 64 → y < 32 → Framebuffer.pixel f x y = Framebuffer.pixel g x y) : f = g := by
  apply Vector.ext; intro y hy
  apply Vector.ext; intro x hx
  simpa [Framebuffer.pixel, hx, hy] using h x y hx hy

/-- Whether the sprite row `b` at column `x0` of row `y0` has a 1 bit for the pixel `(x, y)` of the grid (R181). -/
def rowBit (x0 y0 : Nat) (b : Byte) (x y : Nat) : Bool :=
  decide (y = y0 ∧ y < 32 ∧ x < 64 ∧ x0 ≤ x ∧ x < x0 + 8) && b.getLsbD (7 - (x - x0))

/-- Whether the sprite `bs` with origin `(x0, y0)` has a 1 bit for the pixel `(x, y)` of the grid (R181). -/
def spriteBit (x0 y0 : Nat) (bs : List Byte) (x y : Nat) : Bool :=
  decide (x < 64 ∧ y < 32 ∧ x0 ≤ x ∧ x < x0 + 8 ∧ y0 ≤ y) && (bs.getD (y - y0) 0).getLsbD (7 - (x - x0))

/-- A blit that XORs the pixels of `mask` into the grid and collides with those that were on. -/
def BlitsBy (mask : Nat → Nat → Bool) (p q : Framebuffer × Bool) : Prop :=
  (∀ x y, Framebuffer.pixel q.1 x y = (Framebuffer.pixel p.1 x y ^^ mask x y)) ∧
    (q.2 = true ↔ p.2 = true ∨ ∃ x y, mask x y = true ∧ Framebuffer.pixel p.1 x y = true)

/-- Blits over disjoint masks compose to the blit over their union. -/
theorem BlitsBy.trans {m₁ m₂ m : Nat → Nat → Bool} {p q r : Framebuffer × Bool}
    (h₁ : BlitsBy m₁ p q) (h₂ : BlitsBy m₂ q r) (hor : ∀ x y, m x y = (m₁ x y || m₂ x y))
    (hd : ∀ x y, ¬ (m₁ x y = true ∧ m₂ x y = true)) : BlitsBy m p r := by
  refine ⟨fun x y => ?_, ?_⟩
  · rw [h₂.1, h₁.1, hor]
    have := hd x y
    cases h : m₁ x y <;> cases h' : m₂ x y <;> simp_all
  · rw [h₂.2, h₁.2]
    constructor
    · rintro ((h | ⟨x, y, hm, hp⟩) | ⟨x, y, hm, hq⟩)
      · exact .inl h
      · exact .inr ⟨x, y, by simp [hor, hm], hp⟩
      · refine .inr ⟨x, y, by simp [hor, hm], ?_⟩
        have hn : m₁ x y = false := by have := hd x y; simp_all
        simpa [h₁.1, hn] using hq
    · rintro (h | ⟨x, y, hm, hp⟩)
      · exact .inl (.inl h)
      · rw [hor, Bool.or_eq_true] at hm
        rcases hm with hm | hm
        · exact .inl (.inr ⟨x, y, hm, hp⟩)
        · have hn : m₁ x y = false := by have := hd x y; simp_all
          exact .inr ⟨x, y, hm, by simpa [h₁.1, hn] using hp⟩

theorem BlitsBy.congr {m m' : Nat → Nat → Bool} {p q : Framebuffer × Bool} (h : BlitsBy m p q)
    (e : ∀ x y, m' x y = m x y) : BlitsBy m' p q := by
  have : m' = m := funext fun x => funext fun y => e x y
  rwa [this]

/-- A blit over an empty mask does nothing. -/
theorem BlitsBy.refl_of_empty {m : Nat → Nat → Bool} (p : Framebuffer × Bool) (h : ∀ x y, m x y = false) :
    BlitsBy m p p :=
  ⟨fun x y => by rw [h, Bool.xor_false], by simp only [h]; simp⟩

theorem blitPixel_blitsBy (p : Framebuffer × Bool) (x y : Nat) (bit : Bool) :
    BlitsBy (fun u v => decide (u = x ∧ v = y ∧ x < 64 ∧ y < 32) && bit) p (blitPixel p x y bit) := by
  unfold blitPixel
  split
  · next h =>
    obtain ⟨hy, hx, rfl⟩ := h
    have hx' : x < 64 := by omega
    have hy' : y < 32 := by omega
    refine ⟨fun u v => ?_, ?_⟩
    · simp only [Framebuffer.pixel_flip, Bool.and_true]
      by_cases hc : u = x ∧ v = y ∧ x < 64 ∧ y < 32
      · rw [if_pos hc, decide_eq_true hc]; simp
      · rw [if_neg hc, decide_eq_false hc]; simp
    · simp [hx', hy']
  · next h =>
    have hm : ∀ u v, (decide (u = x ∧ v = y ∧ x < 64 ∧ y < 32) && bit) = false := by
      intro u v
      cases bit <;> simp
      intro _ _ _; simp at h; omega
    exact BlitsBy.refl_of_empty p hm

theorem blitColumns_blitsBy (p : Framebuffer × Bool) (x0 y : Nat) (b : Byte) (left : Nat) (hl : left ≤ 8) :
    BlitsBy (fun u v => decide (v = y ∧ y < 32 ∧ u < 64 ∧ x0 + (8 - left) ≤ u ∧ u < x0 + 8) &&
      b.getLsbD (7 - (u - x0))) p (blitColumns p x0 y b left) := by
  induction left generalizing p with
  | zero =>
    have hm : ∀ u v, (decide (v = y ∧ y < 32 ∧ u < 64 ∧ x0 + (8 - 0) ≤ u ∧ u < x0 + 8) &&
        b.getLsbD (7 - (u - x0))) = false := by
      intro u v
      rw [decide_eq_false (by omega)]; rfl
    exact BlitsBy.refl_of_empty p hm
  | succ left ih =>
    rw [blitColumns]
    refine BlitsBy.trans (blitPixel_blitsBy p (x0 + (7 - left)) y (b.getLsbD left)) (ih _ (by omega)) ?_ ?_
    · intro u v
      by_cases hu : u = x0 + (7 - left)
      · have hb : 7 - (u - x0) = left := by omega
        rw [hb]
        by_cases hv : v = y ∧ y < 32 ∧ u < 64
        · rw [decide_eq_true (by omega : v = y ∧ y < 32 ∧ u < 64 ∧ x0 + (8 - (left + 1)) ≤ u ∧ u < x0 + 8),
            decide_eq_true (by omega : u = x0 + (7 - left) ∧ v = y ∧ x0 + (7 - left) < 64 ∧ y < 32)]
          cases b.getLsbD left <;> simp
        · rw [decide_eq_false (by omega : ¬ (v = y ∧ y < 32 ∧ u < 64 ∧ x0 + (8 - (left + 1)) ≤ u ∧ u < x0 + 8)),
            decide_eq_false (by omega : ¬ (u = x0 + (7 - left) ∧ v = y ∧ x0 + (7 - left) < 64 ∧ y < 32)),
            decide_eq_false (by omega : ¬ (v = y ∧ y < 32 ∧ u < 64 ∧ x0 + (8 - left) ≤ u ∧ u < x0 + 8))]
          rfl
      · rw [decide_eq_false (by omega : ¬ (u = x0 + (7 - left) ∧ v = y ∧ x0 + (7 - left) < 64 ∧ y < 32))]
        have : (v = y ∧ y < 32 ∧ u < 64 ∧ x0 + (8 - (left + 1)) ≤ u ∧ u < x0 + 8) ↔
            (v = y ∧ y < 32 ∧ u < 64 ∧ x0 + (8 - left) ≤ u ∧ u < x0 + 8) := by omega
        rw [decide_eq_decide.mpr this]; rfl
    · intro u v hc
      simp only [Bool.and_eq_true, decide_eq_true_eq] at hc
      omega

/-- One sprite row XORs its bits into the grid (R182). -/
theorem blitRow_blitsBy (p : Framebuffer × Bool) (x0 y : Nat) (b : Byte) :
    BlitsBy (rowBit x0 y b) p (blitRow p x0 y b) := by
  refine (blitColumns_blitsBy p x0 y b 8 (le_refl _)).congr fun u v => ?_
  unfold rowBit
  congr 1
  exact decide_eq_decide.mpr (by omega)

/-- A whole sprite XORs its bits into the grid, and collides with the pixels that were on (R182). -/
theorem blitRows_blitsBy (p : Framebuffer × Bool) (x0 y0 : Nat) (bs : List Byte) :
    BlitsBy (spriteBit x0 y0 bs) p (blitRows p x0 y0 bs) := by
  induction bs generalizing p y0 with
  | nil => exact ⟨fun u v => by simp [blitRows, spriteBit], by simp [blitRows, spriteBit]⟩
  | cons b bs ih =>
    rw [blitRows]
    refine BlitsBy.trans (blitRow_blitsBy p x0 y0 b) (ih _ (y0 + 1)) ?_ ?_
    · intro u v
      unfold rowBit spriteBit
      rcases Nat.lt_trichotomy v y0 with h | rfl | h
      · rw [decide_eq_false (by omega : ¬ (u < 64 ∧ v < 32 ∧ x0 ≤ u ∧ u < x0 + 8 ∧ y0 ≤ v)),
          decide_eq_false (by omega : ¬ (v = y0 ∧ v < 32 ∧ u < 64 ∧ x0 ≤ u ∧ u < x0 + 8)),
          decide_eq_false (by omega : ¬ (u < 64 ∧ v < 32 ∧ x0 ≤ u ∧ u < x0 + 8 ∧ y0 + 1 ≤ v))]
        rfl
      · rw [decide_eq_false (by omega : ¬ (u < 64 ∧ v < 32 ∧ x0 ≤ u ∧ u < x0 + 8 ∧ v + 1 ≤ v))]
        simp only [Nat.sub_self, List.getD_cons_zero, Bool.false_and, Bool.or_false, true_and]
        congr 1
        exact decide_eq_decide.mpr (by omega)
      · rw [decide_eq_false (by omega : ¬ (v = y0 ∧ v < 32 ∧ u < 64 ∧ x0 ≤ u ∧ u < x0 + 8))]
        obtain ⟨k, hk⟩ : ∃ k, v - y0 = k + 1 := ⟨v - y0 - 1, by omega⟩
        rw [hk, show v - (y0 + 1) = k by omega]
        simp only [List.getD_cons_succ, Bool.false_and, Bool.false_or]
        congr 1
        exact decide_eq_decide.mpr (by omega)
    · intro u v hc
      simp only [rowBit, spriteBit, Bool.and_eq_true, decide_eq_true_eq] at hc
      omega

end Sys2Proof.Machine
end

