-- ==== Sys2Proof/Laws/Memory.lean ====
section
/-! SUPPORT. The laws of the memory list: a write is read back at its address and changes no other, blocks likewise, and
every operation keeps the canonical form. -/

namespace Sys2Proof.Machine

theorem Memory.read_erase (m : List Host.Cell) (a k : Nat) :
    Memory.read (Memory.erase m a) k = if k = a then Memory.initial a else Memory.read m k := by
  induction m with
  | nil => simp only [Memory.erase, List.filter_nil, Memory.read]; split <;> simp_all
  | cons c m ih =>
    obtain ⟨j, b⟩ := c
    simp only [Memory.erase] at ih ⊢
    by_cases hj : j = a
    · subst hj
      rw [List.filter_cons_of_neg (by simp), ih]
      by_cases hk : k = j <;> simp [Memory.read, hk, Ne.symm]
    · rw [List.filter_cons_of_pos (by simpa using hj)]
      simp only [Memory.read, ih]
      by_cases hk : k = a
      · subst hk; simp [hj]
      · simp [hk]

theorem Memory.read_insert (m : List Host.Cell) (a k : Nat) (b : Byte) (h : ∀ c ∈ m, c.1 ≠ a) :
    Memory.read (Memory.insert m a b) k = if k = a then b else Memory.read m k := by
  induction m with
  | nil => simp [Memory.insert, Memory.read, eq_comm]
  | cons c m ih =>
    obtain ⟨j, e⟩ := c
    have hj : j ≠ a := h (j, e) (by simp)
    have hm := ih (fun c hc => h c (by simp [hc]))
    simp only [Memory.insert]
    split
    · simp [Memory.read, eq_comm]
    · simp only [Memory.read, hm]
      by_cases hk : k = a
      · subst hk; simp [hj]
      · simp [hk]

/-- A byte write is read back at its address and changes no other (20_memory R52), whatever the list holds. -/
theorem Memory.read_write (m : List Host.Cell) (a k : Nat) (b : Byte) :
    Memory.read (Memory.write m a b) k = if k = a then b else Memory.read m k := by
  unfold Memory.write
  split
  · next hb => rw [Memory.read_erase, hb]
  · rw [Memory.read_insert _ _ _ _ (by intro c hc; simpa [Memory.erase] using (List.mem_filter.mp hc).2),
      Memory.read_erase]
    split <;> simp_all

/-- Every byte after a block store (R52, R161): inside the block the stored byte, outside it the old one. -/
theorem Memory.read_writeBlock (m : List Host.Cell) (a k : Nat) (bs : List Byte) :
    Memory.read (Memory.writeBlock m a bs) k =
      if h : a ≤ k ∧ k < a + bs.length then bs[k - a]'(by omega) else Memory.read m k := by
  induction bs generalizing m a with
  | nil => simp [Memory.writeBlock]
  | cons b bs ih =>
    rw [Memory.writeBlock, ih]
    by_cases hk : a + 1 ≤ k ∧ k < a + 1 + bs.length
    · have hk2 : a ≤ k ∧ k < a + (b :: bs).length := by simp only [List.length_cons]; omega
      rw [dif_pos hk, dif_pos hk2, List.getElem_cons, dif_neg (by omega)]
      congr 1
    · rw [dif_neg hk, Memory.read_write]
      by_cases he : k = a
      · subst he; simp
      · rw [if_neg he, dif_neg (by simp only [List.length_cons]; omega)]

theorem Memory.read_writeBlock_outside (m : List Host.Cell) (a k : Nat) (bs : List Byte)
    (h : ¬ (a ≤ k ∧ k < a + bs.length)) : Memory.read (Memory.writeBlock m a bs) k = Memory.read m k := by
  rw [Memory.read_writeBlock, dif_neg h]

theorem Memory.risingFrom_mono {low low' : Nat} (m : List Host.Cell) (h : low ≤ low')
    (hm : Memory.risingFrom low' m = true) : Memory.risingFrom low m = true := by
  cases m with
  | nil => rfl
  | cons c m =>
    simp only [Memory.risingFrom, Bool.and_eq_true, decide_eq_true_eq] at hm ⊢
    exact ⟨by omega, hm.2⟩

theorem Memory.risingFrom_erase (low : Nat) (m : List Host.Cell) (a : Nat)
    (hm : Memory.risingFrom low m = true) : Memory.risingFrom low (Memory.erase m a) = true := by
  induction m generalizing low with
  | nil => rfl
  | cons c m ih =>
    obtain ⟨k, b⟩ := c
    simp only [Memory.risingFrom, Bool.and_eq_true, decide_eq_true_eq] at hm
    simp only [Memory.erase] at ih ⊢
    rw [List.filter_cons]
    split
    · simp only [Memory.risingFrom, Bool.and_eq_true, decide_eq_true_eq]
      exact ⟨hm.1, ih _ hm.2⟩
    · exact Memory.risingFrom_mono _ (by omega : low ≤ k + 1) (ih _ hm.2)

theorem Memory.risingFrom_insert (low : Nat) (m : List Host.Cell) (a : Nat) (b : Byte) (ha : low ≤ a)
    (hm : Memory.risingFrom low m = true) (hne : ∀ c ∈ m, c.1 ≠ a) :
    Memory.risingFrom low (Memory.insert m a b) = true := by
  induction m generalizing low with
  | nil => simp [Memory.insert, Memory.risingFrom, ha]
  | cons c m ih =>
    obtain ⟨k, e⟩ := c
    simp only [Memory.risingFrom, Bool.and_eq_true, decide_eq_true_eq] at hm
    have hk : k ≠ a := hne (k, e) (by simp)
    simp only [Memory.insert]
    split
    · simp only [Memory.risingFrom, Bool.and_eq_true, decide_eq_true_eq]
      exact ⟨ha, by omega, hm.2⟩
    · simp only [Memory.risingFrom, Bool.and_eq_true, decide_eq_true_eq]
      exact ⟨hm.1, ih _ (by omega) hm.2 (fun c hc => hne c (by simp [hc]))⟩

theorem Memory.mem_insert (m : List Host.Cell) (a : Nat) (b : Byte) (c : Host.Cell)
    (h : c ∈ Memory.insert m a b) : c = (a, b) ∨ c ∈ m := by
  induction m with
  | nil => simpa [Memory.insert] using h
  | cons d m ih =>
    obtain ⟨k, e⟩ := d
    simp only [Memory.insert] at h
    split at h
    · simpa using h
    · rcases List.mem_cons.mp h with rfl | h
      · simp
      · rcases ih h with h | h <;> simp [h]

/-- What the canonical form says, as propositions. -/
theorem Memory.wf_iff (m : List Host.Cell) :
    Memory.wf m = true ↔
      Memory.risingFrom 0 m = true ∧ ∀ c ∈ m, c.1 < Config.memSize ∧ c.2 ≠ Memory.initial c.1 := by
  simp only [Memory.wf, Bool.and_eq_true, List.all_eq_true, decide_eq_true_eq]

/-- The empty list, the memory right after reset, is canonical. -/
@[simp] theorem Memory.wf_nil : Memory.wf [] = true := rfl

/-- A byte write inside the address space keeps the canonical form. -/
theorem Memory.wf_write (m : List Host.Cell) (a : Nat) (b : Byte) (hm : Memory.wf m = true)
    (ha : a < Config.memSize) : Memory.wf (Memory.write m a b) = true := by
  rw [Memory.wf_iff] at hm ⊢
  have he : ∀ c ∈ Memory.erase m a, c ∈ m ∧ c.1 ≠ a := by
    intro c hc; simpa [Memory.erase] using List.mem_filter.mp hc
  have hr := Memory.risingFrom_erase 0 m a hm.1
  unfold Memory.write
  split
  · exact ⟨hr, fun c hc => hm.2 c (he c hc).1⟩
  · next hb =>
    refine ⟨Memory.risingFrom_insert 0 _ a b (Nat.zero_le _) hr (fun c hc => (he c hc).2), ?_⟩
    intro c hc
    rcases Memory.mem_insert _ _ _ _ hc with rfl | hc
    · exact ⟨ha, hb⟩
    · exact hm.2 c (he c hc).1

/-- A block store inside the address space keeps the canonical form. -/
theorem Memory.wf_writeBlock (m : List Host.Cell) (a : Nat) (bs : List Byte) (hm : Memory.wf m = true)
    (ha : a + bs.length ≤ Config.memSize) : Memory.wf (Memory.writeBlock m a bs) = true := by
  induction bs generalizing m a with
  | nil => exact hm
  | cons b bs ih =>
    simp only [List.length_cons] at ha
    exact ih _ _ (Memory.wf_write m a b hm (by omega)) (by omega)

@[simp] theorem Memory.readBlock_length (m : List Host.Cell) (a n : Nat) :
    (Memory.readBlock m a n).length = n := by simp [Memory.readBlock]

@[simp] theorem Memory.readBlock_getElem (m : List Host.Cell) (a n k : Nat) (h : k < (Memory.readBlock m a n).length) :
    (Memory.readBlock m a n)[k] = Memory.read m (a + k) := by simp [Memory.readBlock]

end Sys2Proof.Machine
end

