-- ==== Sys2Proof/Laws/State.lean ====
section
/-! SUPPORT. One lemma per field per update of the state, and how register reads meet register writes, so that no later
proof unfolds a record update. -/

namespace Sys2Proof.Machine

section
variable (s : State)

@[simp] theorem State.setReg_i (x : Reg) (b : Byte) : (s.setReg x b).i = s.i := rfl
@[simp] theorem State.setReg_pc (x : Reg) (b : Byte) : (s.setReg x b).pc = s.pc := rfl
@[simp] theorem State.setReg_stack (x : Reg) (b : Byte) : (s.setReg x b).stack = s.stack := rfl
@[simp] theorem State.setReg_sp (x : Reg) (b : Byte) : (s.setReg x b).sp = s.sp := rfl
@[simp] theorem State.setReg_dt (x : Reg) (b : Byte) : (s.setReg x b).dt = s.dt := rfl
@[simp] theorem State.setReg_st (x : Reg) (b : Byte) : (s.setReg x b).st = s.st := rfl
@[simp] theorem State.setReg_mem (x : Reg) (b : Byte) : (s.setReg x b).mem = s.mem := rfl
@[simp] theorem State.setReg_fb (x : Reg) (b : Byte) : (s.setReg x b).fb = s.fb := rfl
@[simp] theorem State.setReg_keys (x : Reg) (b : Byte) : (s.setReg x b).keys = s.keys := rfl
@[simp] theorem State.setReg_awaiting (x : Reg) (b : Byte) : (s.setReg x b).awaiting = s.awaiting := rfl
@[simp] theorem State.setReg_kx (x : Reg) (b : Byte) : (s.setReg x b).kx = s.kx := rfl
@[simp] theorem State.setReg_fault (x : Reg) (b : Byte) : (s.setReg x b).fault = s.fault := rfl
@[simp] theorem State.setReg_draws (x : Reg) (b : Byte) : (s.setReg x b).draws = s.draws := rfl

@[simp] theorem State.advance_v : s.advance.v = s.v := rfl
@[simp] theorem State.advance_i : s.advance.i = s.i := rfl
@[simp] theorem State.advance_stack : s.advance.stack = s.stack := rfl
@[simp] theorem State.advance_sp : s.advance.sp = s.sp := rfl
@[simp] theorem State.advance_dt : s.advance.dt = s.dt := rfl
@[simp] theorem State.advance_st : s.advance.st = s.st := rfl
@[simp] theorem State.advance_mem : s.advance.mem = s.mem := rfl
@[simp] theorem State.advance_fb : s.advance.fb = s.fb := rfl
@[simp] theorem State.advance_keys : s.advance.keys = s.keys := rfl
@[simp] theorem State.advance_awaiting : s.advance.awaiting = s.awaiting := rfl
@[simp] theorem State.advance_kx : s.advance.kx = s.kx := rfl
@[simp] theorem State.advance_fault : s.advance.fault = s.fault := rfl
@[simp] theorem State.advance_draws : s.advance.draws = s.draws := rfl

@[simp] theorem State.jump_v (a : Word) : (s.jump a).v = s.v := rfl
@[simp] theorem State.jump_i (a : Word) : (s.jump a).i = s.i := rfl
@[simp] theorem State.jump_stack (a : Word) : (s.jump a).stack = s.stack := rfl
@[simp] theorem State.jump_sp (a : Word) : (s.jump a).sp = s.sp := rfl
@[simp] theorem State.jump_dt (a : Word) : (s.jump a).dt = s.dt := rfl
@[simp] theorem State.jump_st (a : Word) : (s.jump a).st = s.st := rfl
@[simp] theorem State.jump_mem (a : Word) : (s.jump a).mem = s.mem := rfl
@[simp] theorem State.jump_fb (a : Word) : (s.jump a).fb = s.fb := rfl
@[simp] theorem State.jump_keys (a : Word) : (s.jump a).keys = s.keys := rfl
@[simp] theorem State.jump_awaiting (a : Word) : (s.jump a).awaiting = s.awaiting := rfl
@[simp] theorem State.jump_kx (a : Word) : (s.jump a).kx = s.kx := rfl
@[simp] theorem State.jump_fault (a : Word) : (s.jump a).fault = s.fault := rfl
@[simp] theorem State.jump_draws (a : Word) : (s.jump a).draws = s.draws := rfl

@[simp] theorem State.raise_v (f : Fault) : (s.raise f).v = s.v := rfl
@[simp] theorem State.raise_i (f : Fault) : (s.raise f).i = s.i := rfl
@[simp] theorem State.raise_pc (f : Fault) : (s.raise f).pc = s.pc := rfl
@[simp] theorem State.raise_stack (f : Fault) : (s.raise f).stack = s.stack := rfl
@[simp] theorem State.raise_sp (f : Fault) : (s.raise f).sp = s.sp := rfl
@[simp] theorem State.raise_dt (f : Fault) : (s.raise f).dt = s.dt := rfl
@[simp] theorem State.raise_st (f : Fault) : (s.raise f).st = s.st := rfl
@[simp] theorem State.raise_mem (f : Fault) : (s.raise f).mem = s.mem := rfl
@[simp] theorem State.raise_fb (f : Fault) : (s.raise f).fb = s.fb := rfl
@[simp] theorem State.raise_keys (f : Fault) : (s.raise f).keys = s.keys := rfl
@[simp] theorem State.raise_awaiting (f : Fault) : (s.raise f).awaiting = s.awaiting := rfl
@[simp] theorem State.raise_kx (f : Fault) : (s.raise f).kx = s.kx := rfl
@[simp] theorem State.raise_draws (f : Fault) : (s.raise f).draws = s.draws := rfl

@[simp] theorem State.writeBlock_v (a : Nat) (bs : List Byte) : (s.writeBlock a bs).v = s.v := rfl
@[simp] theorem State.writeBlock_i (a : Nat) (bs : List Byte) : (s.writeBlock a bs).i = s.i := rfl
@[simp] theorem State.writeBlock_pc (a : Nat) (bs : List Byte) : (s.writeBlock a bs).pc = s.pc := rfl
@[simp] theorem State.writeBlock_stack (a : Nat) (bs : List Byte) : (s.writeBlock a bs).stack = s.stack := rfl
@[simp] theorem State.writeBlock_sp (a : Nat) (bs : List Byte) : (s.writeBlock a bs).sp = s.sp := rfl
@[simp] theorem State.writeBlock_dt (a : Nat) (bs : List Byte) : (s.writeBlock a bs).dt = s.dt := rfl
@[simp] theorem State.writeBlock_st (a : Nat) (bs : List Byte) : (s.writeBlock a bs).st = s.st := rfl
@[simp] theorem State.writeBlock_fb (a : Nat) (bs : List Byte) : (s.writeBlock a bs).fb = s.fb := rfl
@[simp] theorem State.writeBlock_keys (a : Nat) (bs : List Byte) : (s.writeBlock a bs).keys = s.keys := rfl
@[simp] theorem State.writeBlock_awaiting (a : Nat) (bs : List Byte) : (s.writeBlock a bs).awaiting = s.awaiting := rfl
@[simp] theorem State.writeBlock_kx (a : Nat) (bs : List Byte) : (s.writeBlock a bs).kx = s.kx := rfl
@[simp] theorem State.writeBlock_fault (a : Nat) (bs : List Byte) : (s.writeBlock a bs).fault = s.fault := rfl
@[simp] theorem State.writeBlock_draws (a : Nat) (bs : List Byte) : (s.writeBlock a bs).draws = s.draws := rfl

@[simp] theorem State.setRegFlag_i (x : Reg) (r f : Byte) : (s.setRegFlag x r f).i = s.i := rfl
@[simp] theorem State.setRegFlag_pc (x : Reg) (r f : Byte) : (s.setRegFlag x r f).pc = s.pc := rfl
@[simp] theorem State.setRegFlag_stack (x : Reg) (r f : Byte) : (s.setRegFlag x r f).stack = s.stack := rfl
@[simp] theorem State.setRegFlag_sp (x : Reg) (r f : Byte) : (s.setRegFlag x r f).sp = s.sp := rfl
@[simp] theorem State.setRegFlag_dt (x : Reg) (r f : Byte) : (s.setRegFlag x r f).dt = s.dt := rfl
@[simp] theorem State.setRegFlag_st (x : Reg) (r f : Byte) : (s.setRegFlag x r f).st = s.st := rfl
@[simp] theorem State.setRegFlag_mem (x : Reg) (r f : Byte) : (s.setRegFlag x r f).mem = s.mem := rfl
@[simp] theorem State.setRegFlag_fb (x : Reg) (r f : Byte) : (s.setRegFlag x r f).fb = s.fb := rfl
@[simp] theorem State.setRegFlag_keys (x : Reg) (r f : Byte) : (s.setRegFlag x r f).keys = s.keys := rfl
@[simp] theorem State.setRegFlag_awaiting (x : Reg) (r f : Byte) : (s.setRegFlag x r f).awaiting = s.awaiting := rfl
@[simp] theorem State.setRegFlag_kx (x : Reg) (r f : Byte) : (s.setRegFlag x r f).kx = s.kx := rfl
@[simp] theorem State.setRegFlag_fault (x : Reg) (r f : Byte) : (s.setRegFlag x r f).fault = s.fault := rfl
@[simp] theorem State.setRegFlag_draws (x : Reg) (r f : Byte) : (s.setRegFlag x r f).draws = s.draws := rfl

@[simp] theorem State.loadRegBlock_i (x : Reg) : (s.loadRegBlock x).i = s.i := rfl
@[simp] theorem State.loadRegBlock_pc (x : Reg) : (s.loadRegBlock x).pc = s.pc := rfl
@[simp] theorem State.loadRegBlock_stack (x : Reg) : (s.loadRegBlock x).stack = s.stack := rfl
@[simp] theorem State.loadRegBlock_sp (x : Reg) : (s.loadRegBlock x).sp = s.sp := rfl
@[simp] theorem State.loadRegBlock_dt (x : Reg) : (s.loadRegBlock x).dt = s.dt := rfl
@[simp] theorem State.loadRegBlock_st (x : Reg) : (s.loadRegBlock x).st = s.st := rfl
@[simp] theorem State.loadRegBlock_mem (x : Reg) : (s.loadRegBlock x).mem = s.mem := rfl
@[simp] theorem State.loadRegBlock_fb (x : Reg) : (s.loadRegBlock x).fb = s.fb := rfl
@[simp] theorem State.loadRegBlock_keys (x : Reg) : (s.loadRegBlock x).keys = s.keys := rfl
@[simp] theorem State.loadRegBlock_awaiting (x : Reg) : (s.loadRegBlock x).awaiting = s.awaiting := rfl
@[simp] theorem State.loadRegBlock_kx (x : Reg) : (s.loadRegBlock x).kx = s.kx := rfl
@[simp] theorem State.loadRegBlock_fault (x : Reg) : (s.loadRegBlock x).fault = s.fault := rfl
@[simp] theorem State.loadRegBlock_draws (x : Reg) : (s.loadRegBlock x).draws = s.draws := rfl

@[simp] theorem State.advance_pc : s.advance.pc = s.pc + 2 := rfl
@[simp] theorem State.jump_pc (a : Word) : (s.jump a).pc = a := rfl
@[simp] theorem State.raise_fault (f : Fault) : (s.raise f).fault = some f := rfl
@[simp] theorem State.writeBlock_mem (a : Nat) (bs : List Byte) :
    (s.writeBlock a bs).mem = Memory.writeBlock s.mem a bs := rfl
@[simp] theorem State.pcNext_eq : s.pcNext = s.pc + 2 := rfl

@[simp] theorem State.skipIf_v (c : Bool) : (s.skipIf c).v = s.v := by cases c <;> rfl
@[simp] theorem State.skipIf_i (c : Bool) : (s.skipIf c).i = s.i := by cases c <;> rfl
@[simp] theorem State.skipIf_stack (c : Bool) : (s.skipIf c).stack = s.stack := by cases c <;> rfl
@[simp] theorem State.skipIf_sp (c : Bool) : (s.skipIf c).sp = s.sp := by cases c <;> rfl
@[simp] theorem State.skipIf_dt (c : Bool) : (s.skipIf c).dt = s.dt := by cases c <;> rfl
@[simp] theorem State.skipIf_st (c : Bool) : (s.skipIf c).st = s.st := by cases c <;> rfl
@[simp] theorem State.skipIf_mem (c : Bool) : (s.skipIf c).mem = s.mem := by cases c <;> rfl
@[simp] theorem State.skipIf_fb (c : Bool) : (s.skipIf c).fb = s.fb := by cases c <;> rfl
@[simp] theorem State.skipIf_keys (c : Bool) : (s.skipIf c).keys = s.keys := by cases c <;> rfl
@[simp] theorem State.skipIf_awaiting (c : Bool) : (s.skipIf c).awaiting = s.awaiting := by cases c <;> rfl
@[simp] theorem State.skipIf_kx (c : Bool) : (s.skipIf c).kx = s.kx := by cases c <;> rfl
@[simp] theorem State.skipIf_fault (c : Bool) : (s.skipIf c).fault = s.fault := by cases c <;> rfl
@[simp] theorem State.skipIf_draws (c : Bool) : (s.skipIf c).draws = s.draws := by cases c <;> rfl
@[simp] theorem State.skipIf_pc (c : Bool) : (s.skipIf c).pc = if c then s.pc + 2 + 2 else s.pc + 2 := by
  cases c <;> rfl

@[simp] theorem State.setReg_readByte (x : Reg) (b : Byte) (k : Nat) : (s.setReg x b).readByte k = s.readByte k := rfl
@[simp] theorem State.advance_readByte (k : Nat) : s.advance.readByte k = s.readByte k := rfl
@[simp] theorem State.jump_readByte (a : Word) (k : Nat) : (s.jump a).readByte k = s.readByte k := rfl
@[simp] theorem State.raise_readByte (f : Fault) (k : Nat) : (s.raise f).readByte k = s.readByte k := rfl
@[simp] theorem State.setRegFlag_readByte (x : Reg) (r f : Byte) (k : Nat) : (s.setRegFlag x r f).readByte k = s.readByte k := rfl
@[simp] theorem State.loadRegBlock_readByte (x : Reg) (k : Nat) : (s.loadRegBlock x).readByte k = s.readByte k := rfl
@[simp] theorem State.skipIf_readByte (c : Bool) (k : Nat) : (s.skipIf c).readByte k = s.readByte k := by cases c <;> rfl

@[simp] theorem State.advance_reg (r : Reg) : s.advance.reg r = s.reg r := rfl
@[simp] theorem State.jump_reg (a : Word) (r : Reg) : (s.jump a).reg r = s.reg r := rfl
@[simp] theorem State.raise_reg (f : Fault) (r : Reg) : (s.raise f).reg r = s.reg r := rfl
@[simp] theorem State.writeBlock_reg (a : Nat) (bs : List Byte) (r : Reg) : (s.writeBlock a bs).reg r = s.reg r := rfl
@[simp] theorem State.skipIf_reg (c : Bool) (r : Reg) : (s.skipIf c).reg r = s.reg r := by cases c <;> rfl

/-- A register write is read back from its own register and from no other (10_state R21: no aliasing). -/
@[simp] theorem State.setReg_reg (x r : Reg) (b : Byte) :
    (s.setReg x b).reg r = if r = x then b else s.reg r := by
  unfold State.reg State.setReg
  rcases eq_or_ne r x with rfl | h
  · simp
  · have hne : x.val ≠ r.val := fun e => h (Fin.ext e.symm)
    simp [h, hne]

/-- The result and then the flag: the flag wins in `VF` (R23). -/
@[simp] theorem State.setRegFlag_reg (x r : Reg) (b f : Byte) :
    (s.setRegFlag x b f).reg r = if r = vf then f else if r = x then b else s.reg r := by
  simp [State.setRegFlag]

@[simp] theorem State.commitBlit_i (p : Framebuffer × Bool) : (s.commitBlit p).i = s.i := rfl
@[simp] theorem State.commitBlit_pc (p : Framebuffer × Bool) : (s.commitBlit p).pc = s.pc := rfl
@[simp] theorem State.commitBlit_stack (p : Framebuffer × Bool) : (s.commitBlit p).stack = s.stack := rfl
@[simp] theorem State.commitBlit_sp (p : Framebuffer × Bool) : (s.commitBlit p).sp = s.sp := rfl
@[simp] theorem State.commitBlit_dt (p : Framebuffer × Bool) : (s.commitBlit p).dt = s.dt := rfl
@[simp] theorem State.commitBlit_st (p : Framebuffer × Bool) : (s.commitBlit p).st = s.st := rfl
@[simp] theorem State.commitBlit_mem (p : Framebuffer × Bool) : (s.commitBlit p).mem = s.mem := rfl
@[simp] theorem State.commitBlit_keys (p : Framebuffer × Bool) : (s.commitBlit p).keys = s.keys := rfl
@[simp] theorem State.commitBlit_awaiting (p : Framebuffer × Bool) : (s.commitBlit p).awaiting = s.awaiting := rfl
@[simp] theorem State.commitBlit_kx (p : Framebuffer × Bool) : (s.commitBlit p).kx = s.kx := rfl
@[simp] theorem State.commitBlit_fault (p : Framebuffer × Bool) : (s.commitBlit p).fault = s.fault := rfl
@[simp] theorem State.commitBlit_draws (p : Framebuffer × Bool) : (s.commitBlit p).draws = s.draws := rfl
@[simp] theorem State.commitBlit_fb (p : Framebuffer × Bool) : (s.commitBlit p).fb = p.1 := rfl
@[simp] theorem State.commitBlit_readByte (p : Framebuffer × Bool) (k : Nat) :
    (s.commitBlit p).readByte k = s.readByte k := rfl
@[simp] theorem State.commitBlit_reg (p : Framebuffer × Bool) (r : Reg) :
    (s.commitBlit p).reg r = if r = vf then flagByte p.2 else s.reg r := by
  rw [State.commitBlit, State.setReg_reg]; rfl

@[simp] theorem State.loadRegBlock_reg (x r : Reg) :
    (s.loadRegBlock x).reg r = if r.val ≤ x.val then s.readByte (s.i.toNat + r.val) else s.reg r := by
  simp [State.loadRegBlock, State.reg]

end

end Sys2Proof.Machine
end

