-- ==== Sys2Proof/Laws/Ops.lean ====
section
/-! SUPPORT. What each shared operation can do, said once: the bounds check, an access at `I`, push, pop, the operand
forms and the flags. -/

namespace Sys2Proof.Machine

@[simp] theorem addressOf_toNat (nnn : BitVec 12) : (addressOf nnn).toNat = nnn.toNat := by
  have := nnn.isLt
  simp [addressOf]; omega

@[simp] theorem lowNibble_val (b : Byte) : (lowNibble b).val = b.toNat % 16 := rfl

/-- The check passes exactly when the access is empty or ends inside memory (20_memory R54). -/
theorem checkRange_eq_none (base : Word) (n : Nat) :
    checkRange base n = none ↔ n = 0 ∨ base.toNat + n ≤ 0x1000 := by
  unfold checkRange
  split <;> simp <;> omega

/-- Otherwise it reports the lowest out-of-range address of the access (R54). -/
theorem checkRange_eq_some (base : Word) (n : Nat) (f : Fault) (h : checkRange base n = some f) :
    n > 0 ∧ base.toNat + n > 0x1000 ∧
      f = .memoryOutOfBounds (BitVec.ofNat 16 (max base.toNat 0x1000)) := by
  unfold checkRange at h
  split at h
  · next hc => exact ⟨hc.1, by omega, by simpa using h.symm⟩
  · cases h

/-- The reported address always lies outside memory (R54, R210). -/
theorem reportedAddress_toNat (base : Word) :
    (BitVec.ofNat 16 (max base.toNat 0x1000)).toNat = max base.toNat 0x1000 := by
  have := base.isLt
  simp only [BitVec.toNat_ofNat]
  omega

theorem State.withRange_ok (s t : State) (n : Nat) (h : n = 0 ∨ s.i.toNat + n ≤ 0x1000) :
    s.withRange n t = .next t := by
  rw [State.withRange, (checkRange_eq_none _ _).mpr h]

theorem State.withRange_fault (s t : State) (n : Nat) (hn : n > 0) (h : s.i.toNat + n > 0x1000) :
    s.withRange n t = .next (s.raise (.memoryOutOfBounds (BitVec.ofNat 16 (max s.i.toNat 0x1000)))) := by
  have hc : checkRange s.i n = some (.memoryOutOfBounds (BitVec.ofNat 16 (max s.i.toNat 0x1000))) := by
    rw [checkRange, if_pos ⟨hn, by omega⟩]
  rw [State.withRange, hc]

/-- Everything an access at `I` can do: its effect, in range, or the fault, out of range. -/
theorem State.withRange_cases (s t u : State) (n : Nat) (h : s.withRange n t = .next u) :
    ((n = 0 ∨ s.i.toNat + n ≤ 0x1000) ∧ u = t) ∨
      (n > 0 ∧ s.i.toNat + n > 0x1000 ∧
        u = s.raise (.memoryOutOfBounds (BitVec.ofNat 16 (max s.i.toNat 0x1000)))) := by
  by_cases hc : n = 0 ∨ s.i.toNat + n ≤ 0x1000
  · rw [State.withRange_ok s t n hc] at h
    cases h; exact .inl ⟨hc, rfl⟩
  · rw [State.withRange_fault s t n (by omega) (by omega)] at h
    cases h; exact .inr ⟨by omega, by omega, rfl⟩

/-- A push onto a stack that is not full (10_state R27). -/
theorem State.push_of_lt (s : State) (a : Word) (h : s.sp.val < 16) :
    s.push a = some { s with stack := s.stack.set s.sp.val a h, sp := ⟨s.sp.val + 1, by omega⟩ } := by
  rw [State.push, dif_pos h]

theorem State.push_full (s : State) (a : Word) (h : s.sp = 16) : s.push a = none := by
  rw [State.push, dif_neg (by simp [h])]

/-- A pop from a stack that is not empty (R27). -/
theorem State.pop_of_pos (s : State) (h : 0 < s.sp.val) :
    s.pop = some (s.stack[s.sp.val - 1]'(by omega), { s with sp := ⟨s.sp.val - 1, by omega⟩ }) := by
  rw [State.pop, dif_pos h]

theorem State.pop_empty (s : State) (h : s.sp = 0) : s.pop = none := by
  rw [State.pop, dif_neg (by simp [h])]

/-- A flag is exactly 0 or 1 (10_state R22). -/
theorem flagByte_cases (c : Bool) : flagByte c = 0 ∨ flagByte c = 1 := by cases c <;> simp [flagByte]

theorem shiftRightFlag_cases (a : Byte) : shiftRightFlag a = 0 ∨ shiftRightFlag a = 1 := by
  revert a; decide

theorem shiftLeftFlag_cases (a : Byte) : shiftLeftFlag a = 0 ∨ shiftLeftFlag a = 1 := by
  revert a; decide

@[simp] theorem State.regBlock_length (s : State) (x : Reg) : (s.regBlock x).length = x.val + 1 := by
  have := x.isLt
  simp only [State.regBlock, List.length_take, Vector.length_toList]; omega

theorem State.regBlock_getElem (s : State) (x : Reg) (k : Nat) (h : k < (s.regBlock x).length) :
    (s.regBlock x)[k] = s.reg ⟨k, by have := x.isLt; rw [State.regBlock_length] at h; omega⟩ := by
  simp [State.regBlock, State.reg]

@[simp] theorem bcdDigits_length (b : Byte) : (bcdDigits b).length = 3 := rfl

/-- Every byte after a block store (R52, R161). -/
theorem State.writeBlock_readByte (s : State) (a k : Nat) (bs : List Byte) :
    (s.writeBlock a bs).readByte k =
      if h : a ≤ k ∧ k < a + bs.length then bs[k - a]'(by omega) else s.readByte k :=
  Memory.read_writeBlock _ _ _ _

end Sys2Proof.Machine
end

