-- ==== Sys2Proof/Laws/HostOps.lean ====
section
/-! SUPPORT. One lemma per field per host operation, and what a load does to memory (60_exceptions R230). -/

namespace Sys2Proof.Machine

section
variable (s : State)

@[simp] theorem setKeys_v (k : BitVec 16) : (setKeys k s).v = s.v := rfl
@[simp] theorem setKeys_i (k : BitVec 16) : (setKeys k s).i = s.i := rfl
@[simp] theorem setKeys_pc (k : BitVec 16) : (setKeys k s).pc = s.pc := rfl
@[simp] theorem setKeys_stack (k : BitVec 16) : (setKeys k s).stack = s.stack := rfl
@[simp] theorem setKeys_sp (k : BitVec 16) : (setKeys k s).sp = s.sp := rfl
@[simp] theorem setKeys_dt (k : BitVec 16) : (setKeys k s).dt = s.dt := rfl
@[simp] theorem setKeys_st (k : BitVec 16) : (setKeys k s).st = s.st := rfl
@[simp] theorem setKeys_mem (k : BitVec 16) : (setKeys k s).mem = s.mem := rfl
@[simp] theorem setKeys_fb (k : BitVec 16) : (setKeys k s).fb = s.fb := rfl
@[simp] theorem setKeys_awaiting (k : BitVec 16) : (setKeys k s).awaiting = s.awaiting := rfl
@[simp] theorem setKeys_kx (k : BitVec 16) : (setKeys k s).kx = s.kx := rfl
@[simp] theorem setKeys_fault (k : BitVec 16) : (setKeys k s).fault = s.fault := rfl
@[simp] theorem setKeys_draws (k : BitVec 16) : (setKeys k s).draws = s.draws := rfl
@[simp] theorem setKeys_readByte (k : BitVec 16) (a : Nat) : (setKeys k s).readByte a = s.readByte a := rfl
@[simp] theorem setKeys_reg (k : BitVec 16) (r : Reg) : (setKeys k s).reg r = s.reg r := rfl

@[simp] theorem tickTimers_v : (tickTimers s).v = s.v := rfl
@[simp] theorem tickTimers_i : (tickTimers s).i = s.i := rfl
@[simp] theorem tickTimers_pc : (tickTimers s).pc = s.pc := rfl
@[simp] theorem tickTimers_stack : (tickTimers s).stack = s.stack := rfl
@[simp] theorem tickTimers_sp : (tickTimers s).sp = s.sp := rfl
@[simp] theorem tickTimers_mem : (tickTimers s).mem = s.mem := rfl
@[simp] theorem tickTimers_fb : (tickTimers s).fb = s.fb := rfl
@[simp] theorem tickTimers_keys : (tickTimers s).keys = s.keys := rfl
@[simp] theorem tickTimers_awaiting : (tickTimers s).awaiting = s.awaiting := rfl
@[simp] theorem tickTimers_kx : (tickTimers s).kx = s.kx := rfl
@[simp] theorem tickTimers_fault : (tickTimers s).fault = s.fault := rfl
@[simp] theorem tickTimers_draws : (tickTimers s).draws = s.draws := rfl
@[simp] theorem tickTimers_readByte (a : Nat) : (tickTimers s).readByte a = s.readByte a := rfl
@[simp] theorem tickTimers_reg (r : Reg) : (tickTimers s).reg r = s.reg r := rfl

@[simp] theorem tickTimers_dt : (tickTimers s).dt = countDown s.dt := rfl
@[simp] theorem tickTimers_st : (tickTimers s).st = countDown s.st := rfl
@[simp] theorem setKeys_keys (k : BitVec 16) (j : Fin 16) : (setKeys k s).keys[j] = k.getLsbD j.val := by
  simp [setKeys]

/-- A tick counts down by one, not below 0 (46_timers R203). -/
theorem countDown_toNat (t : Byte) : (countDown t).toNat = t.toNat - 1 := by
  unfold countDown
  split
  · next h =>
    have h0 : t.toNat ≠ 0 := fun e => h (BitVec.eq_of_toNat_eq (by simpa using e))
    have := t.isLt
    have h1 : (1 : Byte).toNat = 1 := rfl
    rw [BitVec.toNat_sub, h1]
    omega
  · next h => simp only [ne_eq, Decidable.not_not] at h; subst h; rfl

theorem keyDeliver_idle (k : BitVec 4) (h : s.awaiting = false) : keyDeliver k s = s := by simp [keyDeliver, h]

@[simp] theorem keyDeliver_i (k : BitVec 4) : (keyDeliver k s).i = s.i := by unfold keyDeliver; split <;> rfl
@[simp] theorem keyDeliver_pc (k : BitVec 4) : (keyDeliver k s).pc = s.pc := by unfold keyDeliver; split <;> rfl
@[simp] theorem keyDeliver_stack (k : BitVec 4) : (keyDeliver k s).stack = s.stack := by unfold keyDeliver; split <;> rfl
@[simp] theorem keyDeliver_sp (k : BitVec 4) : (keyDeliver k s).sp = s.sp := by unfold keyDeliver; split <;> rfl
@[simp] theorem keyDeliver_dt (k : BitVec 4) : (keyDeliver k s).dt = s.dt := by unfold keyDeliver; split <;> rfl
@[simp] theorem keyDeliver_st (k : BitVec 4) : (keyDeliver k s).st = s.st := by unfold keyDeliver; split <;> rfl
@[simp] theorem keyDeliver_mem (k : BitVec 4) : (keyDeliver k s).mem = s.mem := by unfold keyDeliver; split <;> rfl
@[simp] theorem keyDeliver_fb (k : BitVec 4) : (keyDeliver k s).fb = s.fb := by unfold keyDeliver; split <;> rfl
@[simp] theorem keyDeliver_keys (k : BitVec 4) : (keyDeliver k s).keys = s.keys := by unfold keyDeliver; split <;> rfl
@[simp] theorem keyDeliver_kx (k : BitVec 4) : (keyDeliver k s).kx = s.kx := by unfold keyDeliver; split <;> rfl
@[simp] theorem keyDeliver_fault (k : BitVec 4) : (keyDeliver k s).fault = s.fault := by unfold keyDeliver; split <;> rfl
@[simp] theorem keyDeliver_draws (k : BitVec 4) : (keyDeliver k s).draws = s.draws := by unfold keyDeliver; split <;> rfl
@[simp] theorem keyDeliver_readByte (k : BitVec 4) (a : Nat) : (keyDeliver k s).readByte a = s.readByte a := by
  unfold keyDeliver; split <;> rfl
@[simp] theorem keyDeliver_awaiting (k : BitVec 4) : (keyDeliver k s).awaiting = false := by
  unfold keyDeliver; split
  · rfl
  · next h => simpa using h

/-- The delivered key lands in the awaited register (45_keypad R196). -/
theorem keyDeliver_reg (k : BitVec 4) (r : Reg) (h : s.awaiting = true) :
    (keyDeliver k s).reg r = if r = s.kx then k.setWidth 8 else s.reg r := by
  rw [keyDeliver, if_pos h, ← State.setReg_reg]; rfl

/-- An image that fits is stored and accepted (70_reset_and_hazards R256). -/
theorem load_fits (image : List Byte) (h : image.length ≤ 3584) :
    load image s = (.ok, s.writeBlock 0x200 image) := by
  rw [load, if_neg (by simpa using h)]; rfl

/-- An image that does not fit is rejected whole (R257). -/
theorem load_tooLarge (image : List Byte) (h : image.length > 3584) : load image s = (.imageTooLarge, s) := by
  rw [load, if_pos (by simpa using h)]

end

end Sys2Proof.Machine
end

