-- ==== Sys2Proof/Laws/PerInstr.lean ====
section
/-! SUPPORT. The family `PrimaryNibble`, one lemma per constructor: the encoder puts each instruction into the family of
its row (30_encoding R76), so the decoder's first look selects that family (R74). -/

namespace Sys2Proof.Laws

/-- The primary nibble of an instruction's row (R76). -/
def primaryNibble (i : Instr) : BitVec 4 :=
  match i with
  | .cls => 0x0
  | .ret => 0x0
  | .jpNnn _ => 0x1
  | .callNnn _ => 0x2
  | .seVxNn _ _ => 0x3
  | .sneVxNn _ _ => 0x4
  | .seVxVy _ _ => 0x5
  | .ldVxNn _ _ => 0x6
  | .addVxNn _ _ => 0x7
  | .ldVxVy _ _ => 0x8
  | .orVxVy _ _ => 0x8
  | .andVxVy _ _ => 0x8
  | .xorVxVy _ _ => 0x8
  | .addVxVy _ _ => 0x8
  | .subVxVy _ _ => 0x8
  | .shrVx _ => 0x8
  | .subnVxVy _ _ => 0x8
  | .shlVx _ => 0x8
  | .sneVxVy _ _ => 0x9
  | .ldINnn _ => 0xA
  | .jpV0Nnn _ => 0xB
  | .rndVxNn _ _ => 0xC
  | .drwVxVyN _ _ _ => 0xD
  | .skpVx _ => 0xE
  | .sknpVx _ => 0xE
  | .ldVxDt _ => 0xF
  | .ldVxK _ => 0xF
  | .ldDtVx _ => 0xF
  | .ldStVx _ => 0xF
  | .addIVx _ => 0xF
  | .ldFVx _ => 0xF
  | .ldBVx _ => 0xF
  | .ldMemVx _ => 0xF
  | .ldVxMem _ => 0xF

namespace PrimaryNibble

/-- The word of a well-formed instruction carries its row's primary nibble. -/
def Statement (i : Instr) : Prop := WellFormed i = true → fieldOp (encode i) = primaryNibble i

theorem cls : Statement .cls := fun _ => by decide
theorem ret : Statement .ret := fun _ => by decide
theorem jpNnn (nnn : BitVec 12) : Statement (.jpNnn nnn) := fun _ => by
  exact fieldOp_ofNat _ 0x1 (by omega) (by omega)
theorem callNnn (nnn : BitVec 12) : Statement (.callNnn nnn) := fun _ => by
  exact fieldOp_ofNat _ 0x2 (by omega) (by omega)
theorem seVxNn (x : Reg) (nn : Byte) : Statement (.seVxNn x nn) := fun _ => by
  exact fieldOp_ofNat _ 0x3 (by omega) (by omega)
theorem sneVxNn (x : Reg) (nn : Byte) : Statement (.sneVxNn x nn) := fun _ => by
  exact fieldOp_ofNat _ 0x4 (by omega) (by omega)
theorem seVxVy (x : Reg) (y : Reg) : Statement (.seVxVy x y) := fun _ => by
  exact fieldOp_ofNat _ 0x5 (by omega) (by omega)
theorem ldVxNn (x : Reg) (nn : Byte) : Statement (.ldVxNn x nn) := fun _ => by
  exact fieldOp_ofNat _ 0x6 (by omega) (by omega)
theorem addVxNn (x : Reg) (nn : Byte) : Statement (.addVxNn x nn) := fun _ => by
  exact fieldOp_ofNat _ 0x7 (by omega) (by omega)
theorem ldVxVy (x : Reg) (y : Reg) : Statement (.ldVxVy x y) := fun _ => by
  exact fieldOp_ofNat _ 0x8 (by omega) (by omega)
theorem orVxVy (x : Reg) (y : Reg) : Statement (.orVxVy x y) := fun _ => by
  exact fieldOp_ofNat _ 0x8 (by omega) (by omega)
theorem andVxVy (x : Reg) (y : Reg) : Statement (.andVxVy x y) := fun _ => by
  exact fieldOp_ofNat _ 0x8 (by omega) (by omega)
theorem xorVxVy (x : Reg) (y : Reg) : Statement (.xorVxVy x y) := fun _ => by
  exact fieldOp_ofNat _ 0x8 (by omega) (by omega)
theorem addVxVy (x : Reg) (y : Reg) : Statement (.addVxVy x y) := fun _ => by
  exact fieldOp_ofNat _ 0x8 (by omega) (by omega)
theorem subVxVy (x : Reg) (y : Reg) : Statement (.subVxVy x y) := fun _ => by
  exact fieldOp_ofNat _ 0x8 (by omega) (by omega)
theorem shrVx (x : Reg) : Statement (.shrVx x) := fun _ => by
  exact fieldOp_ofNat _ 0x8 (by omega) (by omega)
theorem subnVxVy (x : Reg) (y : Reg) : Statement (.subnVxVy x y) := fun _ => by
  exact fieldOp_ofNat _ 0x8 (by omega) (by omega)
theorem shlVx (x : Reg) : Statement (.shlVx x) := fun _ => by
  exact fieldOp_ofNat _ 0x8 (by omega) (by omega)
theorem sneVxVy (x : Reg) (y : Reg) : Statement (.sneVxVy x y) := fun _ => by
  exact fieldOp_ofNat _ 0x9 (by omega) (by omega)
theorem ldINnn (nnn : BitVec 12) : Statement (.ldINnn nnn) := fun _ => by
  exact fieldOp_ofNat _ 0xA (by omega) (by omega)
theorem jpV0Nnn (nnn : BitVec 12) : Statement (.jpV0Nnn nnn) := fun _ => by
  exact fieldOp_ofNat _ 0xB (by omega) (by omega)
theorem rndVxNn (x : Reg) (nn : Byte) : Statement (.rndVxNn x nn) := fun _ => by
  exact fieldOp_ofNat _ 0xC (by omega) (by omega)
theorem drwVxVyN (x : Reg) (y : Reg) (n : Nat) : Statement (.drwVxVyN x y n) := fun h => by
  have hn : n ≤ 15 := by simpa [WellFormed] using h
  exact fieldOp_ofNat _ 0xD (by omega) (by omega)
theorem skpVx (x : Reg) : Statement (.skpVx x) := fun _ => by
  exact fieldOp_ofNat _ 0xE (by omega) (by omega)
theorem sknpVx (x : Reg) : Statement (.sknpVx x) := fun _ => by
  exact fieldOp_ofNat _ 0xE (by omega) (by omega)
theorem ldVxDt (x : Reg) : Statement (.ldVxDt x) := fun _ => by
  exact fieldOp_ofNat _ 0xF (by omega) (by omega)
theorem ldVxK (x : Reg) : Statement (.ldVxK x) := fun _ => by
  exact fieldOp_ofNat _ 0xF (by omega) (by omega)
theorem ldDtVx (x : Reg) : Statement (.ldDtVx x) := fun _ => by
  exact fieldOp_ofNat _ 0xF (by omega) (by omega)
theorem ldStVx (x : Reg) : Statement (.ldStVx x) := fun _ => by
  exact fieldOp_ofNat _ 0xF (by omega) (by omega)
theorem addIVx (x : Reg) : Statement (.addIVx x) := fun _ => by
  exact fieldOp_ofNat _ 0xF (by omega) (by omega)
theorem ldFVx (x : Reg) : Statement (.ldFVx x) := fun _ => by
  exact fieldOp_ofNat _ 0xF (by omega) (by omega)
theorem ldBVx (x : Reg) : Statement (.ldBVx x) := fun _ => by
  exact fieldOp_ofNat _ 0xF (by omega) (by omega)
theorem ldMemVx (x : Reg) : Statement (.ldMemVx x) := fun _ => by
  exact fieldOp_ofNat _ 0xF (by omega) (by omega)
theorem ldVxMem (x : Reg) : Statement (.ldVxMem x) := fun _ => by
  exact fieldOp_ofNat _ 0xF (by omega) (by omega)

end PrimaryNibble

end Sys2Proof.Laws
end

