-- ==== Sys2Proof/Laws/Step.lean ====
section
/-! SUPPORT. What a step can do, said once: the cases of `step`, and what `exec` may do to the program counter, the stack,
the latches and memory. -/

namespace Sys2Proof.Machine

theorem State.running_iff (s : State) : s.running = true ↔ s.fault = none ∧ s.awaiting = false := by
  simp [State.running]

/-- A finished core, spelled out (40_step_cycle R108). -/
theorem State.finished_iff (s : State) :
    s.finished = true ↔ (s.fault = none ∧ s.awaiting = false) ∧ s.pc.toNat ≤ 0xFFE ∧
      (Memory.readWord s.mem s.pc.toNat).toNat = 0x1000 + s.pc.toNat := by
  simp only [State.finished, Bool.and_eq_true, State.running_iff, decide_eq_true_eq]

/-- A halted or waiting core does nothing (40_step_cycle R101). -/
theorem step_not_running (s : State) (h : s.running = false) : step s = .next s := by
  simp [step, h]

/-- The fetch of a word inside memory decodes that word (R102). -/
theorem State.fetchDecode_inside (s : State) (h : s.pc.toNat ≤ 0xFFE) :
    s.fetchDecode = match decode (Memory.readWord s.mem s.pc.toNat) with
      | .ok i => .ok i
      | .error _ => .error (.unknownOpcode (Memory.readWord s.mem s.pc.toNat)) := by
  have hc := (checkRange_eq_none s.pc 2).mpr (.inr (by omega))
  cases hd : decode (Memory.readWord s.mem s.pc.toNat) <;> simp [State.fetchDecode, hc, hd]

/-- A fetch beyond 0xFFE fails its range check (R102). -/
theorem State.fetchDecode_outside (s : State) (h : s.pc.toNat > 0xFFE) :
    s.fetchDecode = .error (.memoryOutOfBounds (BitVec.ofNat 16 (max s.pc.toNat 0x1000))) := by
  rw [State.fetchDecode, checkRange, if_pos ⟨by omega, by omega⟩]

/-- A step of a running core whose word decodes is the execution of that instruction (R100). -/
theorem step_exec (s : State) (i : Instr) (hr : s.running = true) (hp : s.pc.toNat ≤ 0xFFE)
    (hd : decode (Memory.readWord s.mem s.pc.toNat) = .ok i) : step s = exec i s := by
  simp [step, hr, State.fetchDecode_inside s hp, hd]

/-- A step of a running core whose fetch or decode faults raises that fault (R215). -/
theorem step_raise (s : State) (f : Fault) (hr : s.running = true) (hf : s.fetchDecode = .error f) :
    step s = .next (s.raise f) := by
  simp [step, hr, hf]

/-- Everything a step can do (R100): nothing; the fetch fault; the decode fault; the decoded instruction. -/
theorem step_cases (s t : State) (h : step s = .next t) :
    (s.running = false ∧ t = s) ∨
    (s.running = true ∧ s.pc.toNat > 0xFFE ∧
      t = s.raise (.memoryOutOfBounds (BitVec.ofNat 16 (max s.pc.toNat 0x1000)))) ∨
    (s.running = true ∧ s.pc.toNat ≤ 0xFFE ∧
      (∃ e, decode (Memory.readWord s.mem s.pc.toNat) = .error e) ∧
      t = s.raise (.unknownOpcode (Memory.readWord s.mem s.pc.toNat))) ∨
    (s.running = true ∧ s.pc.toNat ≤ 0xFFE ∧
      ∃ i, decode (Memory.readWord s.mem s.pc.toNat) = .ok i ∧ exec i s = .next t) := by
  by_cases hr : s.running = true
  · by_cases hp : s.pc.toNat ≤ 0xFFE
    · cases hd : decode (Memory.readWord s.mem s.pc.toNat) with
      | ok i =>
        rw [step_exec s i hr hp hd] at h
        exact .inr (.inr (.inr ⟨hr, hp, i, rfl, h⟩))
      | error e =>
        have hf : s.fetchDecode = .error (.unknownOpcode (Memory.readWord s.mem s.pc.toNat)) := by
          rw [State.fetchDecode_inside s hp, hd]
        rw [step_raise s _ hr hf] at h
        cases h
        exact .inr (.inr (.inl ⟨hr, hp, ⟨e, rfl⟩, rfl⟩))
    · rw [step_raise s _ hr (State.fetchDecode_outside s (by omega))] at h
      cases h
      exact .inr (.inl ⟨hr, by omega, rfl⟩)
  · rw [step_not_running s (by simpa using hr)] at h
    cases h
    exact .inl ⟨by simpa using hr, rfl⟩

/-- What a committed or faulting execution may do to the parts of the state that the machine's invariant speaks of. -/
structure ExecEffect (s t : State) : Prop where
  /-- `PC` ends at the next instruction, past a skipped one, at a jump target, or at a popped slot (10_state R26). -/
  pc : t.pc = s.pc ∨ t.pc = s.pc + 2 ∨ t.pc = s.pc + 2 + 2 ∨ t.pc.toNat ≤ 0x10FE ∨ ∃ j : Fin 16, t.pc = s.stack[j]
  /-- A slot keeps its value or takes `pc_next` (41_control_flow R123). -/
  stack : ∀ j : Fin 16, t.stack[j] = s.stack[j] ∨ t.stack[j] = s.pc + 2
  /-- The only execute-phase faults, each with its cause (60_exceptions R212 to R214); nothing else is committed. -/
  fault : t.fault = s.fault ∨
    (t = s.raise .stackOverflow ∧ s.sp = 16) ∨ (t = s.raise .stackUnderflow ∧ s.sp = 0) ∨
    (∃ a : Word, t = s.raise (.memoryOutOfBounds a) ∧ 0x1000 ≤ a.toNat)
  /-- A committed execution may start a wait (45_keypad R194); a faulting one does not. -/
  awaiting : t.awaiting = s.awaiting ∨ t.fault = s.fault
  /-- Memory keeps its canonical form. -/
  memory : Memory.wf s.mem = true → Memory.wf t.mem = true

theorem ExecEffect.raise (s : State) (f : Fault)
    (h : (f = .stackOverflow ∧ s.sp = 16) ∨ (f = .stackUnderflow ∧ s.sp = 0) ∨
      (∃ a : Word, f = .memoryOutOfBounds a ∧ 0x1000 ≤ a.toNat)) : ExecEffect s (s.raise f) where
  pc := .inl rfl
  stack _ := .inl rfl
  fault := by
    rcases h with ⟨rfl, h⟩ | ⟨rfl, h⟩ | ⟨a, rfl, h⟩
    · exact .inr (.inl ⟨rfl, h⟩)
    · exact .inr (.inr (.inl ⟨rfl, h⟩))
    · exact .inr (.inr (.inr ⟨a, rfl, h⟩))
  awaiting := .inl rfl
  memory h := h

/-- An effect that leaves the stack, the fault latch and memory alone. -/
theorem ExecEffect.plain (s t : State)
    (hpc : t.pc = s.pc + 2 ∨ t.pc = s.pc + 2 + 2 ∨ t.pc.toNat ≤ 0x10FE) (hs : t.stack = s.stack)
    (hf : t.fault = s.fault) (hm : t.mem = s.mem) : ExecEffect s t where
  pc := by rcases hpc with h | h | h <;> simp [h]
  stack j := .inl (by rw [hs])
  fault := .inl hf
  awaiting := .inr hf
  memory h := by rwa [hm]

/-- An instruction that commits with the default advance (R103). -/
theorem ExecEffect.advance (s u t : State) (h : (.next u.advance : StepOutcome) = .next t) (hp : u.pc = s.pc)
    (hs : u.stack = s.stack) (hf : u.fault = s.fault) (hm : u.mem = s.mem) : ExecEffect s t := by
  cases h
  exact ExecEffect.plain s _ (.inl (by rw [State.advance_pc, hp])) hs hf hm

theorem ExecEffect.withRange (s t u : State) (n : Nat) (h : s.withRange n t = .next u)
    (ht : n = 0 ∨ s.i.toNat + n ≤ 0x1000 → ExecEffect s t) : ExecEffect s u := by
  rcases State.withRange_cases s t u n h with ⟨hn, rfl⟩ | ⟨_, _, rfl⟩
  · exact ht hn
  · refine ExecEffect.raise s _ (.inr (.inr ⟨_, rfl, ?_⟩))
    rw [reportedAddress_toNat]; omega

theorem ExecEffect.skipIf (s : State) (c : Bool) : ExecEffect s (s.skipIf c) :=
  ExecEffect.plain s _ (by cases c <;> simp) (by simp) (by simp) (by simp)

theorem execRet_effect (s t : State) (h : execRet s = .next t) : ExecEffect s t := by
  unfold execRet at h
  by_cases h0 : 0 < s.sp.val
  · rw [State.pop_of_pos s h0] at h
    cases h
    exact ⟨.inr (.inr (.inr (.inr ⟨⟨s.sp.val - 1, by omega⟩, rfl⟩))), fun _ => .inl rfl, .inl rfl, .inr rfl,
      fun h => h⟩
  · have h0 : s.sp = 0 := Fin.ext (by simpa using h0)
    rw [State.pop_empty s h0] at h
    cases h
    exact ExecEffect.raise s _ (.inr (.inl ⟨rfl, h0⟩))

theorem execCallNnn_effect (nnn : BitVec 12) (s t : State) (h : execCallNnn nnn s = .next t) : ExecEffect s t := by
  unfold execCallNnn at h
  by_cases h16 : s.sp.val < 16
  · rw [State.push_of_lt s _ h16] at h
    cases h
    refine ⟨.inr (.inr (.inr (.inl ?_))), fun j => ?_, .inl rfl, .inr rfl, fun h => h⟩
    · have := nnn.isLt
      simp only [State.jump_pc, addressOf_toNat]; omega
    · by_cases hj : s.sp.val = j.val
      · right; simp [← hj, State.jump]
      · left; simp [hj, State.jump]
  · have h16 : s.sp = 16 := Fin.ext (by have := s.sp.isLt; simp; omega)
    rw [State.push_full s _ h16] at h
    cases h
    exact ExecEffect.raise s _ (.inl ⟨rfl, h16⟩)

theorem execJpV0Nnn_effect (nnn : BitVec 12) (s t : State) (h : execJpV0Nnn nnn s = .next t) : ExecEffect s t := by
  cases h
  refine ExecEffect.plain s _ (.inr (.inr ?_)) rfl rfl rfl
  have h1 := nnn.isLt
  have h2 := (s.reg 0).isLt
  simp only [State.jump_pc, BitVec.toNat_add, addressOf_toNat, BitVec.toNat_setWidth]
  omega

theorem writeBlock_effect (s : State) (bs : List Byte) (h : s.i.toNat + bs.length ≤ 0x1000) :
    ExecEffect s (s.writeBlock s.i.toNat bs).advance :=
  ⟨.inr (.inl rfl), fun _ => .inl rfl, .inl rfl, .inl rfl,
    fun hm => Memory.wf_writeBlock s.mem s.i.toNat bs hm h⟩

/-- What any instruction may do (R105), instruction by instruction. -/
theorem exec_effect (i : Instr) (s t : State) (h : exec i s = .next t) : ExecEffect s t := by
  cases i with
  | ret => exact execRet_effect s t h
  | callNnn nnn => exact execCallNnn_effect nnn s t h
  | jpV0Nnn nnn => exact execJpV0Nnn_effect nnn s t h
  | jpNnn nnn =>
    cases h
    refine ExecEffect.plain s _ (.inr (.inr ?_)) rfl rfl rfl
    have := nnn.isLt
    simp only [State.jump_pc, addressOf_toNat]; omega
  | seVxNn x nn => cases h; exact ExecEffect.skipIf s _
  | sneVxNn x nn => cases h; exact ExecEffect.skipIf s _
  | seVxVy x y => cases h; exact ExecEffect.skipIf s _
  | sneVxVy x y => cases h; exact ExecEffect.skipIf s _
  | skpVx x => cases h; exact ExecEffect.skipIf s _
  | sknpVx x => cases h; exact ExecEffect.skipIf s _
  | ldBVx x =>
    refine ExecEffect.withRange s _ t _ h fun hn => writeBlock_effect s _ ?_
    rw [bcdDigits_length]; omega
  | ldMemVx x =>
    refine ExecEffect.withRange s _ t _ h fun hn => writeBlock_effect s _ ?_
    rw [State.regBlock_length]; omega
  | ldVxMem x =>
    refine ExecEffect.withRange s (s.loadRegBlock x).advance t _ h fun _ => ?_
    exact ExecEffect.plain s _ (.inl (by simp)) (by simp) (by simp) (by simp)
  | drwVxVyN x y n =>
    refine ExecEffect.withRange s (s.commitBlit (s.blit x y n)).advance t n h fun _ => ?_
    exact ExecEffect.plain s _ (.inl (by simp)) (by simp) (by simp) (by simp)
  | cls => exact ExecEffect.advance s _ t h rfl rfl rfl rfl
  | ldVxNn x nn => exact ExecEffect.advance s _ t h rfl rfl rfl rfl
  | addVxNn x nn => exact ExecEffect.advance s _ t h rfl rfl rfl rfl
  | ldVxVy x y => exact ExecEffect.advance s _ t h rfl rfl rfl rfl
  | orVxVy x y => exact ExecEffect.advance s _ t h rfl rfl rfl rfl
  | andVxVy x y => exact ExecEffect.advance s _ t h rfl rfl rfl rfl
  | xorVxVy x y => exact ExecEffect.advance s _ t h rfl rfl rfl rfl
  | addVxVy x y => exact ExecEffect.advance s _ t h rfl rfl rfl rfl
  | subVxVy x y => exact ExecEffect.advance s _ t h rfl rfl rfl rfl
  | shrVx x => exact ExecEffect.advance s _ t h rfl rfl rfl rfl
  | subnVxVy x y => exact ExecEffect.advance s _ t h rfl rfl rfl rfl
  | shlVx x => exact ExecEffect.advance s _ t h rfl rfl rfl rfl
  | ldINnn nnn => exact ExecEffect.advance s _ t h rfl rfl rfl rfl
  | rndVxNn x nn => exact ExecEffect.advance s _ t h rfl rfl rfl rfl
  | ldVxDt x => exact ExecEffect.advance s _ t h rfl rfl rfl rfl
  | ldVxK x => exact ExecEffect.advance s _ t h rfl rfl rfl rfl
  | ldDtVx x => exact ExecEffect.advance s _ t h rfl rfl rfl rfl
  | ldStVx x => exact ExecEffect.advance s _ t h rfl rfl rfl rfl
  | addIVx x => exact ExecEffect.advance s _ t h rfl rfl rfl rfl
  | ldFVx x => exact ExecEffect.advance s _ t h rfl rfl rfl rfl

/-- Every instruction answers a next state, a fault being one (R215). -/
theorem exec_next (i : Instr) (s : State) : ∃ t, exec i s = .next t := by
  have hw : ∀ (n : Nat) (t : State), ∃ u, s.withRange n t = .next u := fun n t => by
    unfold State.withRange; split <;> exact ⟨_, rfl⟩
  cases i with
  | ret =>
    have : ∃ t, execRet s = .next t := by unfold execRet; split <;> exact ⟨_, rfl⟩
    exact this
  | callNnn nnn =>
    have : ∃ t, execCallNnn nnn s = .next t := by unfold execCallNnn; split <;> exact ⟨_, rfl⟩
    exact this
  | ldBVx x => exact hw _ _
  | ldMemVx x => exact hw _ _
  | ldVxMem x => exact hw _ _
  | drwVxVyN x y n => exact hw _ _
  | _ => exact ⟨_, rfl⟩

/-- Every step answers a next state. -/
theorem step_next (s : State) : ∃ t, step s = .next t := by
  unfold step
  split
  · split
    · exact ⟨_, rfl⟩
    · exact exec_next _ s
  · exact ⟨_, rfl⟩

end Sys2Proof.Machine
end

