-- ==== Sys2Proof/Tests/Slice0.lean ====
section
/-! SUPPORT. The model's own tests. Every expected value is taken from 95_test_vectors.md (its row is named) or from the
rule named; and, for each statement with hypotheses, a state and operands that meet them. -/

namespace Sys2Proof.Tests

open Sys2Proof.Machine Sys2Proof.Safety

/-- The next state an outcome holds; `d` where it holds none. -/
def nextOf (o : StepOutcome) (d : State) : State :=
  match o with
  | .next t => t
  | .fault _ => d
  | .refused _ => d

/-- The state after one `Step` of the word `w`, placed where `s` fetches. -/
def after (w : Nat) (s : State) : State := nextOf (step (s.withFetchWord 16 w)) s

/-- Reset with `VF` marked 0x55, as in section 2.2 of the vectors. -/
def marked : State := State.reset.setReg vf 0x55

/-- Reset with two registers set. -/
def withRegs (x : Reg) (a : Byte) (y : Reg) (b : Byte) : State := (State.reset.setReg x a).setReg y b

/-- Reset with `I` set. -/
def withIndex (a : Word) : State := { State.reset with i := a }

/-- Reset with `PC` set. -/
def withPc (a : Word) : State := { State.reset with pc := a }

/-- Reset with `SP` set and slot 15 holding 0x0ABC (T3). -/
def withSp (n : Fin 17) : State := { State.reset with sp := n, stack := State.reset.stack.set 15 0x0ABC }

/-! ## WellFormed -/

/-- 30_encoding R71: `N` has 4 bits. -/
theorem test_wellFormed_refuses_16_rows : WellFormed (.drwVxVyN 0 0 16) = false := by decide

theorem test_wellFormed_accepts_15_rows : WellFormed (.drwVxVyN 15 15 15) = true := by decide

/-! ## Decoding (section 2.0: W10 to W43, W50 to W72) -/

theorem test_decode_W10_to_W18 :
    decode 0x00E0 = .ok .cls ∧ decode 0x00EE = .ok .ret ∧ decode 0x1ABC = .ok (.jpNnn 0xABC) ∧
    decode 0x2DEF = .ok (.callNnn 0xDEF) ∧ decode 0x3A7F = .ok (.seVxNn 0xA 0x7F) ∧
    decode 0x4B01 = .ok (.sneVxNn 0xB 0x01) ∧ decode 0x5CD0 = .ok (.seVxVy 0xC 0xD) ∧
    decode 0x6E99 = .ok (.ldVxNn 0xE 0x99) ∧ decode 0x7155 = .ok (.addVxNn 0x1 0x55) := by
  refine ⟨?_, ?_, ?_, ?_, ?_, ?_, ?_, ?_, ?_⟩ <;> rfl

theorem test_decode_W19_to_W27 :
    decode 0x8230 = .ok (.ldVxVy 0x2 0x3) ∧ decode 0x8451 = .ok (.orVxVy 0x4 0x5) ∧
    decode 0x8672 = .ok (.andVxVy 0x6 0x7) ∧ decode 0x8893 = .ok (.xorVxVy 0x8 0x9) ∧
    decode 0x8AB4 = .ok (.addVxVy 0xA 0xB) ∧ decode 0x8CD5 = .ok (.subVxVy 0xC 0xD) ∧
    decode 0x8EF6 = .ok (.shrVx 0xE) ∧ decode 0x8127 = .ok (.subnVxVy 0x1 0x2) ∧
    decode 0x834E = .ok (.shlVx 0x3) := by
  refine ⟨?_, ?_, ?_, ?_, ?_, ?_, ?_, ?_, ?_⟩ <;> rfl

theorem test_decode_W28_to_W35 :
    decode 0x9560 = .ok (.sneVxVy 0x5 0x6) ∧ decode 0xA123 = .ok (.ldINnn 0x123) ∧
    decode 0xB456 = .ok (.jpV0Nnn 0x456) ∧ decode 0xC7F0 = .ok (.rndVxNn 0x7 0xF0) ∧
    decode 0xD89A = .ok (.drwVxVyN 0x8 0x9 0xA) ∧ decode 0xEB9E = .ok (.skpVx 0xB) ∧
    decode 0xECA1 = .ok (.sknpVx 0xC) ∧ decode 0xFD07 = .ok (.ldVxDt 0xD) := by
  refine ⟨?_, ?_, ?_, ?_, ?_, ?_, ?_, ?_⟩ <;> rfl

theorem test_decode_W36_to_W43 :
    decode 0xFE0A = .ok (.ldVxK 0xE) ∧ decode 0xF115 = .ok (.ldDtVx 0x1) ∧ decode 0xF218 = .ok (.ldStVx 0x2) ∧
    decode 0xF31E = .ok (.addIVx 0x3) ∧ decode 0xF429 = .ok (.ldFVx 0x4) ∧ decode 0xF533 = .ok (.ldBVx 0x5) ∧
    decode 0xF655 = .ok (.ldMemVx 0x6) ∧ decode 0xF765 = .ok (.ldVxMem 0x7) := by
  refine ⟨?_, ?_, ?_, ?_, ?_, ?_, ?_, ?_⟩ <;> rfl

/-- W50 to W72: words that match no row. -/
theorem test_decode_illegal :
    ∀ w ∈ ([0x0000, 0x00E1, 0x00EF, 0x00FF, 0x0200, 0x5AB1, 0x5ABF, 0x8AB8, 0x8AB9, 0x8ABA, 0x8ABD, 0x8ABF, 0x9AB1,
      0xE09D, 0xE0A0, 0xEF00, 0xF000, 0xF101, 0xF21F, 0xF330, 0xF475, 0xF585, 0xFFFF] : List Word),
      decode w = .error (.unknownOpcode w) := by
  simp only [List.mem_cons, List.not_mem_nil, or_false]
  rintro w (rfl | rfl | rfl | rfl | rfl | rfl | rfl | rfl | rfl | rfl | rfl | rfl | rfl | rfl | rfl | rfl | rfl | rfl |
    rfl | rfl | rfl | rfl | rfl) <;> rfl

/-- W1 to W6: the fields of 0xD7A3. -/
theorem test_fields_W1_to_W6 :
    fieldOp 0xD7A3 = 0xD ∧ fieldX 0xD7A3 = 0x7 ∧ fieldY 0xD7A3 = 0xA ∧ fieldN 0xD7A3 = 0x3 ∧ fieldNN 0xD7A3 = 0xA3 ∧
    fieldNNN 0xD7A3 = 0x7A3 := by decide

/-- The words of the vectors, encoded again; the ignored `Y` of W25 becomes 0 (log entry 11). -/
theorem test_encode :
    encode (.callNnn 0xDEF) = 0x2DEF ∧ encode (.seVxVy 0xC 0xD) = 0x5CD0 ∧ encode (.shrVx 0xE) = 0x8E06 ∧
    encode (.drwVxVyN 0x8 0x9 0xA) = 0xD89A ∧ encode (.ldVxMem 0x7) = 0xF765 := by decide

/-- The host's entry: the first byte in memory is the high byte (R53, R70). -/
theorem test_decodeTableWord :
    decodeTableWord 16 0xD7A3 = some (.drwVxVyN 0x7 0xA 0x3) ∧ decodeTableWord 16 0x0000 = none := by decide

/-- `withFetchWord` puts the two bytes big-endian at `PC`; from a halted core beyond memory it makes the fetch possible. -/
theorem test_withFetchWord :
    ((State.reset.withFetchWord 16 0x6A05).readByte 0x200 = 0x6A ∧
      (State.reset.withFetchWord 16 0x6A05).readByte 0x201 = 0x05) ∧
    (({ withPc 0x1000 with fault := some .stackOverflow }).withFetchWord 16 0x6A05).running = true := by decide

/-! ## Instructions, one step each (sections 2.1 to 2.6) -/

/-- T1, T3: `RET`. -/
theorem test_ret :
    (after 0x00EE (withSp 16)).pc = 0x0ABC ∧ (after 0x00EE (withSp 16)).sp = 15 := by decide

/-- T2. -/
theorem test_ret_empty :
    (after 0x00EE State.reset).fault = some .stackUnderflow ∧ (after 0x00EE State.reset).pc = 0x0200 := by decide

/-- T4. -/
theorem test_jp : (after 0x1ABC State.reset).pc = 0x0ABC := by decide

/-- T8: the sixteenth entry is accepted. -/
theorem test_call :
    (after 0x2300 (withSp 15)).sp = 16 ∧ (after 0x2300 (withSp 15)).stack[15] = 0x0202 ∧
    (after 0x2300 (withSp 15)).pc = 0x0300 := by decide

/-- T9: the seventeenth is not. -/
theorem test_call_full :
    (after 0x2300 (withSp 16)).fault = some .stackOverflow ∧ (after 0x2300 (withSp 16)).pc = 0x0200 ∧
    (after 0x2300 (withSp 16)).stack[15] = 0x0ABC := by decide

/-- T11, T12. -/
theorem test_seVxNn :
    (after 0x3342 (State.reset.setReg 3 0x42)).pc = 0x0204 ∧ (after 0x3343 (State.reset.setReg 3 0x42)).pc = 0x0202 := by
  decide

/-- T13, T14. -/
theorem test_sneVxNn :
    (after 0x4342 (State.reset.setReg 3 0x42)).pc = 0x0202 ∧ (after 0x4343 (State.reset.setReg 3 0x42)).pc = 0x0204 := by
  decide

/-- T15, T16. -/
theorem test_seVxVy :
    (after 0x5340 (withRegs 3 0x07 4 0x07)).pc = 0x0204 ∧ (after 0x5340 (withRegs 3 0x07 4 0x08)).pc = 0x0202 := by decide

/-- T19, T20. -/
theorem test_sneVxVy :
    (after 0x9340 (withRegs 3 0x07 4 0x08)).pc = 0x0204 ∧ (after 0x9340 (withRegs 3 0x07 4 0x07)).pc = 0x0202 := by decide

/-- T26, T27: not reduced to 12 bits; the register is `V0`. -/
theorem test_jpV0 :
    (after 0xBFFF (State.reset.setReg 0 0xFF)).pc = 0x10FE ∧ (after 0xB2FF (withRegs 0 0x01 2 0x80)).pc = 0x0300 := by
  decide

/-- T30. -/
theorem test_ldVxNn :
    (after 0x6A05 marked).reg 0xA = 0x05 ∧ (after 0x6A05 marked).reg vf = 0x55 ∧ (after 0x6A05 marked).pc = 0x0202 := by
  decide

/-- T32: it wraps and writes no flag. -/
theorem test_addVxNn :
    (after 0x7101 (withRegs 1 0xFF vf 0x55)).reg 1 = 0x00 ∧ (after 0x7101 (withRegs 1 0xFF vf 0x55)).reg vf = 0x55 := by
  decide

/-- T34. -/
theorem test_ldVxVy : (after 0x8120 (State.reset.setReg 2 0x7C)).reg 1 = 0x7C := by decide

/-- T35; `VF` is not written. -/
theorem test_or :
    (after 0x8121 ((withRegs 1 0xF0 2 0x0C).setReg vf 0x55)).reg 1 = 0xFC ∧
    (after 0x8121 ((withRegs 1 0xF0 2 0x0C).setReg vf 0x55)).reg vf = 0x55 := by decide

/-- T36. -/
theorem test_and : (after 0x8122 (withRegs 1 0xF0 2 0x3C)).reg 1 = 0x30 := by decide

/-- T37. -/
theorem test_xor : (after 0x8123 (withRegs 1 0xFF 2 0x0F)).reg 1 = 0xF0 := by decide

/-- T39, T40. -/
theorem test_addVxVy :
    ((after 0x8014 (withRegs 0 0xFF 1 0x01)).reg 0 = 0x00 ∧ (after 0x8014 (withRegs 0 0xFF 1 0x01)).reg vf = 1) ∧
    ((after 0x8014 ((withRegs 0 0x01 1 0x01).setReg vf 0x55)).reg 0 = 0x02 ∧
      (after 0x8014 ((withRegs 0 0x01 1 0x01).setReg vf 0x55)).reg vf = 0) := by decide

/-- T44, T45: the flag wins over the result; the old `VF` is the addend. -/
theorem test_addVxVy_flag_register :
    (after 0x8F14 (withRegs vf 0x10 1 0x20)).reg vf = 0 ∧
    ((after 0x80F4 (withRegs 0 0x01 vf 0xFF)).reg 0 = 0x00 ∧ (after 0x80F4 (withRegs 0 0x01 vf 0xFF)).reg vf = 1) := by
  decide

/-- T47, T48: borrow, and no borrow on equal operands. -/
theorem test_sub :
    ((after 0x8235 (withRegs 2 0x03 3 0x05)).reg 2 = 0xFE ∧
      (after 0x8235 ((withRegs 2 0x03 3 0x05).setReg vf 0x55)).reg vf = 0) ∧
    (after 0x8235 (withRegs 2 0x05 3 0x05)).reg vf = 1 := by decide

/-- T53, T54. -/
theorem test_shr :
    ((after 0x84A6 (withRegs 4 0x81 0xA 0x3C)).reg 4 = 0x40 ∧ (after 0x84A6 (withRegs 4 0x81 0xA 0x3C)).reg vf = 1) ∧
    (after 0x8F06 (State.reset.setReg vf 0x02)).reg vf = 0 := by decide

/-- T56, T57. -/
theorem test_subn :
    ((after 0x8237 (withRegs 2 0x03 3 0x05)).reg 2 = 0x02 ∧ (after 0x8237 (withRegs 2 0x03 3 0x05)).reg vf = 1) ∧
    ((after 0x8237 (withRegs 2 0x05 3 0x03)).reg 2 = 0xFE ∧
      (after 0x8237 ((withRegs 2 0x05 3 0x03).setReg vf 0x55)).reg vf = 0) := by decide

/-- T59, T62. -/
theorem test_shl :
    ((after 0x840E (State.reset.setReg 4 0x81)).reg 4 = 0x02 ∧ (after 0x840E (State.reset.setReg 4 0x81)).reg vf = 1) ∧
    (after 0x8F0E (State.reset.setReg vf 0x41)).reg vf = 0 := by decide

/-- T64: a mask of 0 gives 0, whatever is drawn. -/
theorem test_rnd_mask_zero : (after 0xC300 (State.reset.setReg 3 0x77)).reg 3 = 0 := by
  have h : (after 0xC300 (State.reset.setReg 3 0x77)).reg 3 = Config.draw8 0 &&& 0 := rfl
  rw [h]; exact BitVec.and_zero

/-- T65: a mask of 0xFF gives the drawn byte; the next draw is another one. -/
theorem test_rnd_all_bits : (after 0xC3FF State.reset).reg 3 = Config.draw8 0 &&& 0xFF ∧ (after 0xC3FF State.reset).draws = 1 :=
  ⟨rfl, rfl⟩

/-- T70. -/
theorem test_ldINnn : (after 0xA2F0 State.reset).i = 0x02F0 := by decide

/-- T72, T73: held above 0xFFF without a flag; wraps at 16 bits. -/
theorem test_addIVx :
    ((after 0xF01E ((withIndex 0x0FFF).setReg 0 1)).i = 0x1000 ∧ (after 0xF01E ((withIndex 0x0FFF).setReg 0 1)).fault = none) ∧
    (after 0xF01E ((withIndex 0xFFFF).setReg 0 1)).i = 0x0000 := by decide

/-- T74, T75: five bytes a glyph; the low nibble selects it. -/
theorem test_ldFVx :
    (after 0xF029 (State.reset.setReg 0 0x07)).i = 0x0023 ∧ (after 0xF029 (State.reset.setReg 0 0x1A)).i = 0x0032 := by decide

/-- T79: the last address that fits, hundreds first. -/
theorem test_ldBVx : (after 0xF033 ((withIndex 0x0FFD).setReg 0 0xEA)).readBlock 0x0FFD 3 = [2, 3, 4] := by decide

/-- T80: nothing is stored. -/
theorem test_ldBVx_out_of_bounds :
    (after 0xF033 ((withIndex 0x0FFE).setReg 0 0xFF)).fault = some (.memoryOutOfBounds 0x1000) ∧
    (after 0xF033 ((withIndex 0x0FFE).setReg 0 0xFF)).readByte 0x0FFE = 0 := by decide

/-- T81: `V3` is not stored, `I` is unchanged. -/
theorem test_ldMemVx :
    (after 0xF255 (((((withIndex 0x0303).setReg 0 2).setReg 1 3).setReg 2 4).setReg 3 9)).readBlock 0x0303 4 = [2, 3, 4, 0] ∧
    (after 0xF255 (withIndex 0x0303)).i = 0x0303 := by decide

/-- T84. -/
theorem test_ldMemVx_out_of_bounds :
    (after 0xFF55 ((withIndex 0x0FF1).setReg 0 1)).fault = some (.memoryOutOfBounds 0x1000) ∧
    (after 0xFF55 ((withIndex 0x0FF1).setReg 0 1)).readByte 0x0FF1 = 0 := by decide

/-- T87: the first sixteen font bytes; `VF` is `MEM[0x00F]`. -/
theorem test_ldVxMem :
    (after 0xFF65 (withIndex 0)).reg 0xA = 0xF0 ∧ (after 0xFF65 (withIndex 0)).reg vf = 0xF0 ∧
    (after 0xF965 (withIndex 0)).reg 0xA = 0 := by decide

/-- T89: the reported address is `I` itself. -/
theorem test_ldVxMem_out_of_bounds :
    (after 0xF065 (withIndex 0x1234)).fault = some (.memoryOutOfBounds 0x1234) := by decide

/-- T90. -/
theorem test_cls :
    (after 0x00E0 { marked with fb := marked.fb.flip 63 31 }).fb = State.reset.fb ∧
    (after 0x00E0 { marked with fb := marked.fb.flip 63 31 }).reg vf = 0x55 := by decide

/-- T92: glyph 7 at (62,30), clipped right and below: two pixels on, no flag. -/
theorem test_drw_clips :
    (after 0xD125 (((withIndex 0x0023).setReg 1 0x3E).setReg 2 0x1E)).fb = (State.reset.fb.flip 62 30).flip 63 30 ∧
    (after 0xD125 (((withIndex 0x0023).setReg 1 0x3E).setReg 2 0x1E)).reg vf = 0 := by decide

/-- T94: one pixel erased: collision. -/
theorem test_drw_collides :
    (after 0xD125 { withIndex 0x0023 with fb := State.reset.fb.flip 3 1 }).reg vf = 1 ∧
    ((after 0xD125 { withIndex 0x0023 with fb := State.reset.fb.flip 3 1 }).fb.pixel 3 1 = false ∧
      (after 0xD125 { withIndex 0x0023 with fb := State.reset.fb.flip 3 1 }).fb.pixel 1 4 = true) := by decide

/-- T110, T112. -/
theorem test_skp :
    (after 0xE19E ((setKeys 0x0800 State.reset).setReg 1 0x1B)).pc = 0x0204 ∧
    (after 0xE19E ((setKeys 0xF7FF State.reset).setReg 1 0x0B)).pc = 0x0202 := by decide

/-- T113, T114. -/
theorem test_sknp :
    (after 0xE1A1 ((setKeys 0x0800 State.reset).setReg 1 0x0B)).pc = 0x0202 ∧
    (after 0xE1A1 (State.reset.setReg 1 0x0B)).pc = 0x0204 := by decide

/-- T115: a key already down is not taken. -/
theorem test_ldVxK :
    (after 0xF30A (setKeys 0x0010 State.reset)).awaiting = true ∧ (after 0xF30A (setKeys 0x0010 State.reset)).kx = 3 ∧
    (after 0xF30A (setKeys 0x0010 State.reset)).pc = 0x0202 ∧ (after 0xF30A (setKeys 0x0010 State.reset)).reg 3 = 0 := by
  decide

/-- T118: the key lands in `VF`. -/
theorem test_keyDeliver :
    (keyDeliver 0x3 (after 0xFF0A State.reset)).reg vf = 0x03 ∧ (keyDeliver 0x3 (after 0xFF0A State.reset)).awaiting = false := by
  decide

/-- T130, T131, T132. -/
theorem test_timer_moves :
    (after 0xF307 { State.reset with dt := 0x2A }).reg 3 = 0x2A ∧ (after 0xF315 (State.reset.setReg 3 0x3C)).dt = 0x3C ∧
    ((after 0xF318 (State.reset.setReg 3 0x3C)).st = 0x3C ∧ (after 0xF318 (State.reset.setReg 3 0x3C)).soundOn = true) := by
  decide

/-- T133, T134. -/
theorem test_tickTimers :
    (tickTimers { State.reset with dt := 0x05 }).dt = 0x04 ∧ (tickTimers { State.reset with st := 0x01 }).dt = 0x00 ∧
    (tickTimers { State.reset with st := 0x01 }).st = 0x00 := by decide

/-- T150, T152: the fetch faults. -/
theorem test_fetch_faults :
    (nextOf (step (withPc 0x0FFF)) State.reset).fault = some (.memoryOutOfBounds 0x1000) ∧
    (nextOf (step (withPc 0x1234)) State.reset).fault = some (.memoryOutOfBounds 0x1234) := by decide

/-- T151: the last instruction slot executes. -/
theorem test_last_slot :
    (after 0x6A05 (withPc 0x0FFE)).reg 0xA = 0x05 ∧ (after 0x6A05 (withPc 0x0FFE)).pc = 0x1000 := by decide

/-- T160: one bit away from `LD V0,[I]`. -/
theorem test_unknown_opcode :
    (after 0xF064 State.reset).fault = some (.unknownOpcode 0xF064) ∧ (after 0xF064 State.reset).pc = 0x0200 := by decide

/-- T161: an odd `PC` executes. -/
theorem test_odd_pc : (after 0x612A (withPc 0x0203)).reg 1 = 0x2A ∧ (after 0x612A (withPc 0x0203)).pc = 0x0205 := by decide

/-- L2: `Load`. -/
theorem test_load :
    (load [0x12, 0x00] State.reset).1 = .ok ∧ (load [0x12, 0x00] State.reset).2.readByte 0x200 = 0x12 ∧
    (load [0x12, 0x00] State.reset).2.readByte 0x1FF = 0 := by decide

/-- L4: one byte too many. -/
theorem test_load_too_large : load (List.replicate 3585 0xAB) State.reset = (.imageTooLarge, State.reset) := by
  rw [load, if_pos (by rw [List.length_replicate]; decide)]

/-- 10_state R37: the last glyph's rows, at 0x04B. -/
theorem test_font : State.reset.readBlock 0x04B 6 = [0xF0, 0x80, 0xF0, 0x80, 0x80, 0x00] := by decide

/-- R210: the codes. -/
theorem test_fault_codes :
    (Fault.unknownOpcode 0).code = 1 ∧ (Fault.memoryOutOfBounds 0).code = 2 ∧ Fault.stackOverflow.code = 3 ∧
    Fault.stackUnderflow.code = 4 := by decide

/-! ## Witnesses: a state and operands that meet each statement's hypotheses, at the ends of their ranges -/

/-- Every `match` and `mask` pair that a statement's `EncodedAs` names selects a word (W10 to W32). -/
theorem test_witness_EncodedAs_rows_1_to_23 :
    (0x00E0 : Word) &&& 0xFFFF = 0x00E0 ∧ (0x00EE : Word) &&& 0xFFFF = 0x00EE ∧ (0x1ABC : Word) &&& 0xF000 = 0x1000 ∧
    (0x2DEF : Word) &&& 0xF000 = 0x2000 ∧ (0x3A7F : Word) &&& 0xF000 = 0x3000 ∧ (0x4B01 : Word) &&& 0xF000 = 0x4000 ∧
    (0x5CD0 : Word) &&& 0xF00F = 0x5000 ∧ (0x6E99 : Word) &&& 0xF000 = 0x6000 ∧ (0x7155 : Word) &&& 0xF000 = 0x7000 ∧
    (0x8230 : Word) &&& 0xF00F = 0x8000 ∧ (0x8451 : Word) &&& 0xF00F = 0x8001 ∧ (0x8672 : Word) &&& 0xF00F = 0x8002 ∧
    (0x8893 : Word) &&& 0xF00F = 0x8003 ∧ (0x8AB4 : Word) &&& 0xF00F = 0x8004 ∧ (0x8CD5 : Word) &&& 0xF00F = 0x8005 ∧
    (0x8EF6 : Word) &&& 0xF00F = 0x8006 ∧ (0x8127 : Word) &&& 0xF00F = 0x8007 ∧ (0x834E : Word) &&& 0xF00F = 0x800E ∧
    (0x9560 : Word) &&& 0xF00F = 0x9000 ∧ (0xA123 : Word) &&& 0xF000 = 0xA000 ∧ (0xB456 : Word) &&& 0xF000 = 0xB000 ∧
    (0xC7F0 : Word) &&& 0xF000 = 0xC000 ∧ (0xD89A : Word) &&& 0xF000 = 0xD000 := by decide

/-- The same for families E and F (W33 to W43). -/
theorem test_witness_EncodedAs_rows_24_to_34 :
    (0xEB9E : Word) &&& 0xF0FF = 0xE09E ∧ (0xECA1 : Word) &&& 0xF0FF = 0xE0A1 ∧ (0xFD07 : Word) &&& 0xF0FF = 0xF007 ∧
    (0xFE0A : Word) &&& 0xF0FF = 0xF00A ∧ (0xF115 : Word) &&& 0xF0FF = 0xF015 ∧ (0xF218 : Word) &&& 0xF0FF = 0xF018 ∧
    (0xF31E : Word) &&& 0xF0FF = 0xF01E ∧ (0xF429 : Word) &&& 0xF0FF = 0xF029 ∧ (0xF533 : Word) &&& 0xF0FF = 0xF033 ∧
    (0xF655 : Word) &&& 0xF0FF = 0xF055 ∧ (0xF765 : Word) &&& 0xF0FF = 0xF065 := by decide

theorem test_witness_DecodeOfEncodeIsIdentity : WellFormed (.drwVxVyN 0xF 0xF 15) = true ∧ WellFormed .cls = true := by decide

theorem test_witness_DecodeFollowsTheOpcodeTable :
    (∃ r ∈ opcodeTable, r.selects 0xFF65 = true) ∧ (∀ r ∈ opcodeTable, r.selects 0x0000 = false) ∧
    (∀ r ∈ opcodeTable, r.selects 0xFFFF = false) := by
  refine ⟨⟨⟨0xF065, 0xF0FF, fun w => .ldVxMem (fieldX w)⟩, ?_, by decide⟩, by decide, by decide⟩
  simp [opcodeTable, opcodeRows26To34]

theorem test_witness_IllegalWordsByFamily : decode 0x0000 = .error (.unknownOpcode 0x0000) ∧
    decode 0xFFFF = .error (.unknownOpcode 0xFFFF) ∧ decode 0x5FF1 = .error (.unknownOpcode 0x5FF1) := ⟨rfl, rfl, rfl⟩

theorem test_witness_ZeroFamilyAndBFamily :
    (0x0FFF : Word).toNat < 0x1000 ∧ (0x0FFF : Word) ≠ 0x00E0 ∧ (0x0FFF : Word) ≠ 0x00EE := by decide

theorem test_witness_OnlyShiftsIgnoreAField :
    decode 0x9560 = .ok (.sneVxVy 5 6) ∧ (∀ x, Instr.sneVxVy 5 6 ≠ .shrVx x) ∧ (∀ x, Instr.sneVxVy 5 6 ≠ .shlVx x) :=
  ⟨rfl, fun _ h => (by cases h), fun _ h => (by cases h)⟩

theorem test_witness_DecodedIsWellFormed : decode 0xDFFF = .ok (.drwVxVyN 0xF 0xF 15) := rfl

/-- The end of the programs of section 3 (R108), and a `JP` that is not to itself. -/
theorem test_finished :
    (State.reset.withFetchWord 16 0x1200).finished = true ∧ (State.reset.withFetchWord 16 0x1202).finished = false ∧
    State.reset.finished = false := by decide

/-- A finished core at the last slot, running; an operation other than `Reset` and `Load` on it; and the self-jump by
`JP V0,NNN` at 0x210, which is not `finished`. -/
theorem test_witness_FinishedIsTheSelfJump :
    (((withPc 0x0FFE).withFetchWord 16 0x1FFE).finished = true ∧ ((withPc 0x0FFE).withFetchWord 16 0x1FFE).fault = none ∧
      ((withPc 0x0FFE).withFetchWord 16 0x1FFE).awaiting = false) ∧
    (applyOp .tickTimers ((withPc 0x0FFE).withFetchWord 16 0x1FFE) =
        .next (tickTimers ((withPc 0x0FFE).withFetchWord 16 0x1FFE)) ∧
      Op.tickTimers ≠ .reset ∧ ∀ image, Op.tickTimers ≠ .load image) ∧
    (decode 0xB200 = .ok (.jpV0Nnn 0x200) ∧ (0x200 : BitVec 12).toNat + ((State.reset.setReg 0 0x10).reg 0).toNat = 0x210 ∧
      ((withPc 0x0210).withFetchWord 16 0xB200).finished = false) :=
  ⟨by decide, ⟨rfl, by decide, fun _ h => (by cases h)⟩, rfl, by decide, by decide⟩

/-- At the last slot 0xFFE and at an odd address. -/
theorem test_witness_StepRunsTheDecodedInstruction :
    (CanFetch ((withPc 0x0FFE).withFetchWord 16 0x00E0) ∧
      decode (BitVec.ofNat 16 ((((withPc 0x0FFE).withFetchWord 16 0x00E0).readByte 0xFFE).toNat * 256 +
        (((withPc 0x0FFE).withFetchWord 16 0x00E0).readByte 0xFFF).toNat)) = .ok .cls) ∧
    CanFetch ((withPc 0x0203).withFetchWord 16 0x00E0) :=
  ⟨⟨⟨rfl, rfl, by decide⟩, by rfl⟩, ⟨rfl, rfl, by decide⟩⟩

theorem test_witness_HaltedOrWaitingStepChangesNothing :
    ((after 0x00EE State.reset).fault ≠ none ∧
      ((after 0xF30A State.reset).fault = none ∧ (after 0xF30A State.reset).awaiting = true)) ∧
    (applyOp .tickTimers (after 0x00EE State.reset) = .next (tickTimers (after 0x00EE State.reset)) ∧
      Op.tickTimers ≠ .reset ∧ ∀ k, Op.tickTimers ≠ .keyDeliver k) :=
  ⟨by decide, rfl, by decide, fun _ h => (by cases h)⟩

theorem test_witness_FetchIsBoundsCheckedOnly :
    ((withPc 0x0FFF).fault = none ∧ (withPc 0x0FFF).awaiting = false ∧ (withPc 0x0FFF).pc.toNat = 0xFFF) ∧
    (withPc 0x1000).pc.toNat ≥ 0x1000 ∧ (withPc 0xFFFF).pc.toNat ≥ 0x1000 ∧ CanFetch (withPc 0x0FFE) ∧
    CanFetch (withPc 0x0000) :=
  ⟨by decide, by decide, by decide, ⟨rfl, rfl, by decide⟩, ⟨rfl, rfl, by decide⟩⟩

theorem test_witness_UnmatchedWordRaisesUnknownOpcode :
    CanFetch State.reset ∧
    (0x0000 : Word).toNat = (State.reset.readByte 0x200).toNat * 256 + (State.reset.readByte 0x201).toNat ∧
    (∀ r ∈ opcodeTable, r.selects 0x0000 = false) := ⟨⟨rfl, rfl, by decide⟩, by decide, by decide⟩

theorem test_witness_FaultingStepLeavesOnlyTheLatch :
    step State.reset = .next (nextOf (step State.reset) State.reset) ∧ State.reset.fault = none ∧
    (nextOf (step State.reset) State.reset).fault = some (.unknownOpcode 0x0000) := ⟨rfl, rfl, rfl⟩

/-- A halted core under `SetKeys`, and under `Reset`. -/
theorem test_witness_OnlyResetClearsTheFault :
    ((after 0x00EE State.reset).fault = some .stackUnderflow ∧ Op.setKeys 0xFFFF ≠ .reset ∧
      applyOp (.setKeys 0xFFFF) (after 0x00EE State.reset) = .next (setKeys 0xFFFF (after 0x00EE State.reset))) ∧
    applyOp .reset (after 0x00EE State.reset) = .next (resetMachine (after 0x00EE State.reset)) :=
  ⟨⟨by decide, by decide, rfl⟩, rfl⟩

/-- A wait that ends, and one that starts. -/
theorem test_witness_WaitIsSetAndClearedOnlyByItsOwners :
    (applyOp (.keyDeliver 0xB) (after 0xF10A State.reset) = .next (keyDeliver 0xB (after 0xF10A State.reset)) ∧
      (after 0xF10A State.reset).awaiting = true ∧ (keyDeliver 0xB (after 0xF10A State.reset)).awaiting = false) ∧
    (applyOp .step (State.reset.withFetchWord 16 0xF10A) = .next (after 0xF10A State.reset) ∧
      (State.reset.withFetchWord 16 0xF10A).awaiting = false) := ⟨⟨rfl, by decide, by decide⟩, rfl, by decide⟩

/-- The ends of the check: the last byte, one past it, an empty access, the sum above 16 bits. -/
theorem test_witness_RangeCheckIsExact :
    ¬ (1 > 0 ∧ (0x0FFF : Word).toNat + 1 - 1 > 0xFFF) ∧ (2 > 0 ∧ (0x0FFF : Word).toNat + 2 - 1 > 0xFFF) ∧
    ¬ (0 > 0 ∧ (0xFFFF : Word).toNat + 0 - 1 > 0xFFF) ∧ (2 > 0 ∧ (0xFFFF : Word).toNat + 2 - 1 > 0xFFF) := by decide

/-- T85's registers, at the highest `PC` that the statement admits. -/
def selfModifying : State := { withRegs 0 0x61 1 0x2A with pc := 0x0FFC, i := 0x0FFE }

theorem test_witness_StoredInstructionIsFetchedNext :
    selfModifying.fault = none ∧ selfModifying.awaiting = false ∧ 1 ≤ (1 : Reg).val ∧ selfModifying.pc.toNat ≤ 0xFFC ∧
    selfModifying.i.toNat = selfModifying.pc.toNat + 2 ∧ selfModifying.i.toNat + (1 : Reg).val ≤ 0xFFF ∧
    decode (BitVec.ofNat 16 ((selfModifying.reg 0).toNat * 256 + (selfModifying.reg 1).toNat)) = .ok (.ldVxNn 1 0x2A) :=
  ⟨rfl, rfl, by decide, by decide, by decide, by decide, rfl⟩

/-- A state to reset that differs from reset in several elements. -/
theorem test_witness_ResetValues :
    (after 0xF30A (withRegs 0 1 vf 2)).awaiting = true ∧ (resetMachine (after 0xF30A (withRegs 0 1 vf 2))).awaiting = false := by
  decide

/-- A state that is not reset: `PC` at its bound, the stack full of the highest return address, memory written. -/
def busy : State :=
  { State.reset with pc := 0x10FE, sp := 16, stack := Vector.replicate 16 0x1000, mem := [(0x000, 0x01), (0xFFF, 0x02)] }

theorem test_witness_StepKeepsTheInvariant : Inv busy ∧ step busy = .next (nextOf (step busy) busy) :=
  ⟨⟨by decide, by decide, by decide, by decide, trivial⟩, rfl⟩

/-- The same state under `Load` of a byte, under a tick and under `Reset`. -/
theorem test_witness_EveryOperationKeepsTheInvariant :
    Inv busy ∧ applyOp (.load [0xFF]) busy = .next (load [0xFF] busy).2 ∧ applyOp .tickTimers busy = .next (tickTimers busy) ∧
    applyOp .reset busy = .next (resetMachine busy) :=
  ⟨test_witness_StepKeepsTheInvariant.1, rfl, rfl, rfl⟩

theorem test_witness_ReachableStatesMeetTheInvariant :
    Reachable (tickTimers (nextOf (step State.reset) State.reset)) :=
  .op .tickTimers (.op .step .reset rfl) rfl

theorem test_witness_OnlySixInstructionsWriteTheFlag :
    (exec (.ldVxNn 0xE 1) marked = .next (nextOf (exec (.ldVxNn 0xE 1) marked) marked) ∧
      writesFlag (.ldVxNn 0xE 1) = false ∧ destination (.ldVxNn 0xE 1) ≠ some vf) ∧
    (exec (.addVxVy 0 1) marked = .next (nextOf (exec (.addVxVy 0 1) marked) marked) ∧ writesFlag (.addVxVy 0 1) = true ∧
      marked.fault = none ∧ (nextOf (exec (.addVxVy 0 1) marked) marked).fault = none) :=
  ⟨⟨rfl, rfl, by decide⟩, rfl, rfl, rfl, rfl⟩

/-- For each clause, an execution that changes its part. -/
theorem test_witness_EachPartIsWrittenOnlyByItsInstructions :
    (nextOf (exec (.ldINnn 1) marked) marked).i ≠ marked.i ∧ (nextOf (exec (.callNnn 1) marked) marked).stack ≠ marked.stack ∧
    (nextOf (exec (.callNnn 1) marked) marked).sp ≠ marked.sp ∧ (nextOf (exec (.ldDtVx vf) marked) marked).dt ≠ marked.dt ∧
    (nextOf (exec (.ldStVx vf) marked) marked).st ≠ marked.st ∧
    (nextOf (exec (.ldBVx 0) marked) marked).readByte 0 ≠ marked.readByte 0 ∧
    (nextOf (exec (.drwVxVyN 0 0 1) marked) marked).fb ≠ marked.fb ∧
    (nextOf (exec (.ldVxK 1) marked) marked).awaiting ≠ marked.awaiting ∧
    (nextOf (exec (.rndVxNn 0 0) marked) marked).draws ≠ marked.draws := by
  refine ⟨?_, ?_, ?_, ?_, ?_, ?_, ?_, ?_, fun h => absurd (show (1 : Nat) = 0 from h) (by decide)⟩ <;> decide

theorem test_witness_SoundTimerIsNotReadByInstructions :
    step { State.reset with st := 0xFF } = .next (nextOf (step { State.reset with st := 0xFF }) State.reset) := rfl

theorem test_witness_CanonicalMemoriesThatReadAlikeAreEqual :
    Memory.wf busy.mem = true ∧ Memory.wf (Memory.write [(0xFFF, 0x02)] 0x000 0x01) = true ∧
    Memory.write [(0xFFF, 0x02)] 0x000 0x01 = busy.mem := by decide

theorem test_witness_RetPopsOrUnderflows :
    (withSp 1).sp.val = (0 : Fin 16).val + 1 ∧ (withSp 16).sp.val = (15 : Fin 16).val + 1 ∧ (withSp 0).sp.val = 0 := by decide

theorem test_witness_JpJumps :
    (withPc 0x0FFF).pc.toNat = (0xFFF : BitVec 12).toNat ∧ (withPc 0x0FFF).fault = none ∧ (withPc 0x0FFF).awaiting = false := by
  decide

theorem test_witness_CallPushesOrOverflows :
    (withSp 0).sp.val = (0 : Fin 16).val ∧ (withSp 15).sp.val = (15 : Fin 16).val ∧ (14 : Fin 16) ≠ 15 ∧
    (withSp 16).sp.val = 16 := by decide

/-- The sums 0xFFF and 0x10FE. -/
theorem test_witness_JpV0AddsV0 :
    State.reset.fault = none ∧ State.reset.awaiting = false ∧ (0xFFF : BitVec 12).toNat + (State.reset.reg 0).toNat > 0xFFE ∧
    (0xFFF : BitVec 12).toNat + ((State.reset.setReg 0 0xFF).reg 0).toNat > 0xFFE := by decide

theorem test_witness_CallThenRetResumesAfterTheCall : (withSp 15).sp.val < 16 ∧ (withSp 0).sp.val < 16 := by decide

theorem test_witness_RegisterSkips :
    ((0x5001 : Word).toNat / 4096 = 5 ∧ (0x5001 : Word).toNat % 16 ≠ 0) ∧
    ((0x9FFF : Word).toNat / 4096 = 9 ∧ (0x9FFF : Word).toNat % 16 ≠ 0) := by decide

/-- The destinations beside `VF`, for the flag-writing arithmetic and the shifts. -/
theorem test_witness_arithmetic_destination : (0xE : Reg) ≠ vf ∧ (0 : Reg) ≠ vf := by decide

theorem test_witness_RandomIsMasked : (0x0F : Byte).getLsbD 4 = false ∧ (0x00 : Byte).getLsbD 0 = false := by decide

theorem test_witness_BcdStore :
    (withIndex 0x0FFD).i.toNat + 2 ≤ 0xFFF ∧ (withIndex 0x0FFE).i.toNat + 2 > 0xFFF ∧ (withIndex 0xFFFF).i.toNat + 2 > 0xFFF := by
  decide

/-- Both block transfers, and the store followed by the load: the longest and the shortest block, at the last address and one past it. -/
theorem test_witness_RegisterBlocks :
    (withIndex 0x0FF0).i.toNat + (0xF : Reg).val ≤ 0xFFF ∧ (withIndex 0x0FFF).i.toNat + (0 : Reg).val ≤ 0xFFF ∧
    (withIndex 0x0FF1).i.toNat + (0xF : Reg).val > 0xFFF ∧ (withIndex 0x1000).i.toNat + (0 : Reg).val > 0xFFF ∧
    (2 : Reg).val ≤ (2 : Reg).val ∧ (2 : Reg).val < (3 : Reg).val := by decide

/-- The store's state with every register lost afterwards: memory and `I` are as the store left them. -/
theorem test_witness_StoreThenLoadRestoresRegisters :
    (withIndex 0x0FF0).i.toNat + (0xF : Reg).val ≤ 0xFFF ∧
    ({ nextOf (exec (.ldMemVx 0xF) (withIndex 0x0FF0)) State.reset with v := marked.v } : State).i = (withIndex 0x0FF0).i ∧
    ∀ a : Nat, ({ nextOf (exec (.ldMemVx 0xF) (withIndex 0x0FF0)) State.reset with v := marked.v } : State).readByte a =
      (nextOf (exec (.ldMemVx 0xF) (withIndex 0x0FF0)) State.reset).readByte a := ⟨by decide, by decide, fun _ => rfl⟩

/-- No row, the last byte, fifteen rows up to the last byte, and two bytes one of which is outside. -/
theorem test_witness_DrwXorsTheSprite_range :
    ((0 = 0 ∨ (withIndex 0xFFFF).i.toNat + 0 - 1 ≤ 0xFFF) ∧ (1 = 0 ∨ (withIndex 0x0FFF).i.toNat + 1 - 1 ≤ 0xFFF)) ∧
    (15 = 0 ∨ (withIndex 0x0FF1).i.toNat + 15 - 1 ≤ 0xFFF) ∧ (2 > 0 ∧ (withIndex 0x0FFF).i.toNat + 2 - 1 > 0xFFF) := by
  decide

/-- T94's state, where a lit pixel meets a sprite bit, and the blank screen, where none does. -/
theorem test_witness_DrwXorsTheSprite_collision :
    (∃ (px : Fin 64) (py : Fin 32), spriteOn (withIndex 0x0023) 1 2 5 px.val py.val = true ∧
      ((withIndex 0x0023).fb.flip 3 1)[py][px] = true) ∧
    (∀ (px : Fin 64) (py : Fin 32), (withIndex 0x0023).fb[py][px] = false) :=
  ⟨⟨3, 1, by decide⟩, fun px py => by simp [withIndex, State.reset]⟩

/-- T100's draw; and a draw whose origin column is `VF`, which the first draw leaves as it was. -/
theorem test_witness_DrawingTwiceRestoresTheScreen :
    (exec (.drwVxVyN 1 2 5) (withIndex 0x0023) =
        .next (nextOf (exec (.drwVxVyN 1 2 5) (withIndex 0x0023)) State.reset) ∧
      (withIndex 0x0023).i.toNat + 5 - 1 ≤ 0xFFF) ∧
    ((nextOf (exec (.drwVxVyN vf 2 5) (withIndex 0x0023)) State.reset).reg vf).toNat % 64 =
      ((withIndex 0x0023).reg vf).toNat % 64 ∧
    ((nextOf (exec (.drwVxVyN vf 2 5) (withIndex 0x0023)) State.reset).reg 2).toNat % 32 =
      ((withIndex 0x0023).reg 2).toNat % 32 := ⟨⟨rfl, by decide⟩, by decide, by decide⟩

theorem test_witness_KeyWaitStartsAndCompletes : State.reset.fault = none := rfl

theorem test_witness_KeySkips :
    (0xF : Fin 16).val = ((State.reset.setReg 1 0xFF).reg 1).toNat % 16 ∧ (0 : Fin 16).val = (State.reset.reg 1).toNat % 16 := by
  decide

/-- A released keypad with two registers set, under a tick, which is no `SetKeys`. -/
theorem test_witness_KeySkips_released :
    (∀ j : Fin 16, (withRegs 1 0xFF vf 0x05).keys[j] = false) ∧ (∀ k, Op.tickTimers ≠ .setKeys k) ∧
    applyOp .tickTimers (withRegs 1 0xFF vf 0x05) = .next (tickTimers (withRegs 1 0xFF vf 0x05)) :=
  ⟨by decide, fun _ h => (by cases h), rfl⟩

theorem test_witness_KeyDeliverCompletesTheWait :
    ((after 0xFF0A State.reset).awaiting = true ∧ State.reset.awaiting = false) ∧
    applyOp (.keyDeliver 0x3) (after 0xFF0A State.reset) = .next (keyDeliver 0x3 (after 0xFF0A State.reset)) ∧
    (keyDeliver 0x3 (after 0xFF0A State.reset)).awaiting = false := ⟨by decide, rfl, by decide⟩

/-- No byte, exactly 3584 bytes, one more. -/
theorem test_witness_LoadCopiesOrRejects :
    ([] : List Byte).length ≤ 3584 ∧ (List.replicate 3584 (0xAB : Byte)).length ≤ 3584 ∧
    3583 < (List.replicate 3584 (0xAB : Byte)).length ∧ (List.replicate 3585 (0xAB : Byte)).length > 3584 := by
  simp only [List.length_replicate, List.length_nil]; omega

end Sys2Proof.Tests
end

section
/-! SUPPORT. The state after `Reset` (10_state R40), field by field and byte by byte, and the statement O18 about it. -/

namespace Sys2Proof.Machine

/-- The reset contents are the sprite table from address 0, and 0 past its end (R37, R40). -/
theorem Memory.initial_eq_getD (a : Nat) : Memory.initial a = fontData.getD a 0 := if_pos (Nat.zero_le a)

theorem Memory.initial_above_font (a : Nat) (h : 0x050 ≤ a) : Memory.initial a = 0 := by
  rw [Memory.initial_eq_getD]
  exact List.getD_eq_default _ _ h

/-- Any part of the font area, in memory's reset contents, is the same part of the sprite table. -/
theorem Memory.readBlock_nil_font (a n : Nat) (h : a + n ≤ 80) :
    Memory.readBlock [] a n = (fontData.drop a).take n := by
  have hlen : fontData.length = 80 := rfl
  apply List.ext_getElem
  · rw [Memory.readBlock_length, List.length_take, List.length_drop]; omega
  · intro k hk _
    rw [Memory.readBlock_length] at hk
    rw [Memory.readBlock_getElem, List.getElem_take, List.getElem_drop, Memory.read, Memory.initial_eq_getD]
    exact List.getD_eq_getElem _ _ (by omega)

section
variable (s : State)

@[simp] theorem resetMachine_reg (r : Reg) : (resetMachine s).reg r = 0 := Vector.getElem_replicate r.isLt
theorem resetMachine_stack (j : Fin 16) : (resetMachine s).stack[j] = 0 := Vector.getElem_replicate j.isLt
theorem resetMachine_keys (k : Fin 16) : (resetMachine s).keys[k] = false := Vector.getElem_replicate k.isLt
theorem resetMachine_fb (px : Fin 64) (py : Fin 32) : (resetMachine s).fb[py][px] = false := by
  simp [resetMachine, State.reset]
@[simp] theorem resetMachine_soundOn : (resetMachine s).soundOn = false := rfl

@[simp] theorem resetMachine_readByte (a : Nat) : (resetMachine s).readByte a = Memory.initial a := rfl

theorem resetMachine_readBlock_font (a n : Nat) (h : a + n ≤ 80) :
    (resetMachine s).readBlock a n = (fontData.drop a).take n := Memory.readBlock_nil_font a n h

end

/-- Power-on is a reset of a core that has drawn nothing. -/
theorem State.reset_eq_resetMachine : State.reset = resetMachine State.reset := rfl

/-- Settles O18: power-on and `Reset` both give some `resetMachine s`, and each of its elements has its value of R40. -/
theorem resetValues : Obligations.ResetValues := by
  intro s t ht
  obtain ⟨s', rfl⟩ : ∃ s', t = resetMachine s' := by
    rcases ht with rfl | rfl
    · exact ⟨s, rfl⟩
    · exact ⟨State.reset, State.reset_eq_resetMachine⟩
  have hlow := resetMachine_readBlock_font s' 0x000 40 (by decide)
  have hhigh := resetMachine_readBlock_font s' 0x028 40 (by decide)
  have hzero : ∀ a : Nat, 0x050 ≤ a → a ≤ 0xFFF → (resetMachine s').readByte a = 0 :=
    fun a ha _ => Memory.initial_above_font a ha
  -- The two font halves and the remaining fields are literals of the model, so `rfl` compares them with R37 and R40.
  exact ⟨resetMachine_reg s', rfl, rfl, rfl, resetMachine_stack s', rfl, rfl, resetMachine_soundOn s', hlow.trans rfl,
    hhigh.trans rfl, hzero, resetMachine_fb s', resetMachine_keys s', rfl, rfl, rfl⟩

end Sys2Proof.Machine
end

section
/-! SUPPORT. The decoder against the opcode table (30_encoding R74, R76): a word decodes to `i` exactly when a row of the
table reads `i` from it. Then what encoding gives back (R77), and the statements O2, O6 and O5. -/

namespace Sys2Proof

/-- Some row of `rows` selects `w` and reads `i` from its fields. -/
def RowReads (rows : List OpcodeRow) (w : Word) (i : Instr) : Prop :=
  ∃ r ∈ rows, w &&& r.mask = r.pattern ∧ r.operands w = i

section
variable {w : Word} {i : Instr} {r : OpcodeRow}

theorem RowReads.mono {rows rows' : List OpcodeRow} (hsub : rows ⊆ rows') (h : RowReads rows w i) :
    RowReads rows' w i := by
  obtain ⟨r, hr, hread⟩ := h
  exact ⟨r, hsub hr, hread⟩

theorem OpcodeRow.selects_iff : r.selects w = true ↔ w &&& r.mask = r.pattern := beq_iff_eq

theorem mem_opcodeTable_iff : r ∈ opcodeTable ↔
    r ∈ opcodeRows1To9 ∨ r ∈ opcodeRows10To18 ∨ r ∈ opcodeRows19To25 ∨ r ∈ opcodeRows26To34 := by
  simp only [opcodeTable, List.mem_append, or_assoc]

theorem opcodeRows1To9_subset : opcodeRows1To9 ⊆ opcodeTable := fun _ hr => mem_opcodeTable_iff.mpr (.inl hr)
theorem opcodeRows10To18_subset : opcodeRows10To18 ⊆ opcodeTable :=
  fun _ hr => mem_opcodeTable_iff.mpr (.inr (.inl hr))
theorem opcodeRows19To25_subset : opcodeRows19To25 ⊆ opcodeTable :=
  fun _ hr => mem_opcodeTable_iff.mpr (.inr (.inr (.inl hr)))
theorem opcodeRows26To34_subset : opcodeRows26To34 ⊆ opcodeTable :=
  fun _ hr => mem_opcodeTable_iff.mpr (.inr (.inr (.inr hr)))

/-! The families that the primary nibble alone selects among (R74). -/

theorem decode_eq_decodeFamily0 (hop : fieldOp w = 0x0#4) : decode w = decodeFamily0 w := by rw [decode, hop]; rfl
theorem decode_eq_decodeFamily8 (hop : fieldOp w = 0x8#4) : decode w = decodeFamily8 w := by rw [decode, hop]; rfl
theorem decode_eq_decodeFamilyE (hop : fieldOp w = 0xE#4) : decode w = decodeFamilyE w := by rw [decode, hop]; rfl
theorem decode_eq_decodeFamilyF (hop : fieldOp w = 0xF#4) : decode w = decodeFamilyF w := by rw [decode, hop]; rfl

/-! What each mask of R76 leaves of a word, from the word's fields. -/

theorem and_opMask (w : Word) : w &&& 0xF000#16 = (fieldOp w).setWidth 16 <<< 12 := by
  ext j hj
  interval_cases j <;> simp [fieldOp]

theorem and_opNMask (w : Word) : w &&& 0xF00F#16 = (fieldOp w).setWidth 16 <<< 12 ||| (fieldN w).setWidth 16 := by
  ext j hj
  interval_cases j <;> simp [fieldOp, fieldN]

theorem and_opNNMask (w : Word) : w &&& 0xF0FF#16 = (fieldOp w).setWidth 16 <<< 12 ||| (fieldNN w).setWidth 16 := by
  ext j hj
  interval_cases j <;> simp [fieldOp, fieldNN]

/-! The fields that a selected word shares with the row's pattern. -/

theorem fieldOp_of_selects (hs : w &&& r.mask = r.pattern) (hm : fieldOp r.mask = 0xF#4) :
    fieldOp w = fieldOp r.pattern := by rw [← hs, fieldOp_and w _ hm]

theorem fieldN_of_selects (hs : w &&& r.mask = r.pattern) (hm : fieldN r.mask = 0xF#4) :
    fieldN w = fieldN r.pattern := by rw [← hs, fieldN_and w _ hm]

theorem fieldNN_of_selects (hs : w &&& r.mask = r.pattern) (hm : fieldNN r.mask = 0xFF#8) :
    fieldNN w = fieldNN r.pattern := by rw [← hs, fieldNN_and w _ hm]

/-! ## A row that selects a word decodes it

The rows of each list are taken in the table's order. `00E0` and `00EE` fix all bits, the families look at their trailing bits, and
`5XY0` and `9XY0` at `N`; every other row is decided by `op` alone. -/

theorem decode_of_mem_opcodeRows1To9 (hr : r ∈ opcodeRows1To9) (hs : w &&& r.mask = r.pattern) :
    decode w = .ok (r.operands w) := by
  unfold opcodeRows1To9 at hr
  fin_cases hr
  · obtain rfl := (BitVec.and_allOnes (x := w)).symm.trans hs; rfl
  · obtain rfl := (BitVec.and_allOnes (x := w)).symm.trans hs; rfl
  · rw [decode, fieldOp_of_selects hs rfl]; rfl
  · rw [decode, fieldOp_of_selects hs rfl]; rfl
  · rw [decode, fieldOp_of_selects hs rfl]; rfl
  · rw [decode, fieldOp_of_selects hs rfl]; rfl
  · rw [decode, fieldOp_of_selects hs rfl]; exact if_pos (fieldN_of_selects hs rfl)
  · rw [decode, fieldOp_of_selects hs rfl]; rfl
  · rw [decode, fieldOp_of_selects hs rfl]; rfl

theorem decode_of_mem_opcodeRows10To18 (hr : r ∈ opcodeRows10To18) (hs : w &&& r.mask = r.pattern) :
    decode w = .ok (r.operands w) := by
  unfold opcodeRows10To18 at hr
  fin_cases hr
  all_goals
    rw [decode_eq_decodeFamily8 (fieldOp_of_selects hs rfl), decodeFamily8, fieldN_of_selects hs rfl]
    rfl

theorem decode_of_mem_opcodeRows19To25 (hr : r ∈ opcodeRows19To25) (hs : w &&& r.mask = r.pattern) :
    decode w = .ok (r.operands w) := by
  unfold opcodeRows19To25 at hr
  fin_cases hr
  · rw [decode, fieldOp_of_selects hs rfl]; exact if_pos (fieldN_of_selects hs rfl)
  · rw [decode, fieldOp_of_selects hs rfl]; rfl
  · rw [decode, fieldOp_of_selects hs rfl]; rfl
  · rw [decode, fieldOp_of_selects hs rfl]; rfl
  · rw [decode, fieldOp_of_selects hs rfl]; rfl
  · rw [decode_eq_decodeFamilyE (fieldOp_of_selects hs rfl), decodeFamilyE, fieldNN_of_selects hs rfl]; rfl
  · rw [decode_eq_decodeFamilyE (fieldOp_of_selects hs rfl), decodeFamilyE, fieldNN_of_selects hs rfl]; rfl

theorem decode_of_mem_opcodeRows26To34 (hr : r ∈ opcodeRows26To34) (hs : w &&& r.mask = r.pattern) :
    decode w = .ok (r.operands w) := by
  unfold opcodeRows26To34 at hr
  fin_cases hr
  all_goals
    rw [decode_eq_decodeFamilyF (fieldOp_of_selects hs rfl), decodeFamilyF, fieldNN_of_selects hs rfl]
    rfl

theorem decode_of_mem_opcodeTable (hr : r ∈ opcodeTable) (hs : w &&& r.mask = r.pattern) :
    decode w = .ok (r.operands w) := by
  rcases mem_opcodeTable_iff.mp hr with hr | hr | hr | hr
  · exact decode_of_mem_opcodeRows1To9 hr hs
  · exact decode_of_mem_opcodeRows10To18 hr hs
  · exact decode_of_mem_opcodeRows19To25 hr hs
  · exact decode_of_mem_opcodeRows26To34 hr hs

/-! ## A word that decodes is selected by a row

The branch of the decoder gives the word's constant fields, and those give what the row's mask leaves of the word. -/

theorem rowReads_of_decodeFamily0 (h : decodeFamily0 w = .ok i) : RowReads opcodeRows1To9 w i := by
  unfold decodeFamily0 at h
  split at h <;> cases h <;> simp [RowReads, opcodeRows1To9]

theorem rowReads_of_decodeFamily8 (hop : fieldOp w = 0x8#4) (h : decodeFamily8 w = .ok i) :
    RowReads opcodeRows10To18 w i := by
  unfold decodeFamily8 at h
  split at h <;> cases h
  all_goals
    rename_i hn
    simp [RowReads, opcodeRows10To18, and_opNMask, hop, hn]

theorem rowReads_of_decodeFamilyE (hop : fieldOp w = 0xE#4) (h : decodeFamilyE w = .ok i) :
    RowReads opcodeRows19To25 w i := by
  unfold decodeFamilyE at h
  split at h <;> cases h
  all_goals
    rename_i hnn
    simp [RowReads, opcodeRows19To25, and_opNNMask, hop, hnn]

theorem rowReads_of_decodeFamilyF (hop : fieldOp w = 0xF#4) (h : decodeFamilyF w = .ok i) :
    RowReads opcodeRows26To34 w i := by
  unfold decodeFamilyF at h
  split at h <;> cases h
  all_goals
    rename_i hnn
    simp [RowReads, opcodeRows26To34, and_opNNMask, hop, hnn]

theorem rowReads_of_decode (h : decode w = .ok i) : RowReads opcodeTable w i := by
  unfold decode at h
  split at h
  case h_1 => exact .mono opcodeRows1To9_subset (rowReads_of_decodeFamily0 h)
  case h_9 hop => exact .mono opcodeRows10To18_subset (rowReads_of_decodeFamily8 hop h)
  case h_15 hop => exact .mono opcodeRows19To25_subset (rowReads_of_decodeFamilyE hop h)
  case h_16 hop => exact .mono opcodeRows26To34_subset (rowReads_of_decodeFamilyF hop h)
  case h_17 => cases h
  case h_6 hop =>
    split at h <;> cases h
    next hn =>
    exact .mono opcodeRows1To9_subset (by simp [RowReads, opcodeRows1To9, and_opMask, and_opNMask, hop, hn])
  case h_10 hop =>
    split at h <;> cases h
    next hn =>
    exact .mono opcodeRows19To25_subset (by simp [RowReads, opcodeRows19To25, and_opMask, and_opNMask, hop, hn])
  case h_11 hop | h_12 hop | h_13 hop | h_14 hop =>
    cases h
    exact .mono opcodeRows19To25_subset (by simp [RowReads, opcodeRows19To25, and_opMask, hop])
  all_goals
    rename_i hop
    cases h
    exact .mono opcodeRows1To9_subset (by simp [RowReads, opcodeRows1To9, and_opMask, hop])

/-- What the decoder answers with: exactly what a row that selects the word reads from it (R74). -/
theorem decode_eq_ok_iff : decode w = .ok i ↔ RowReads opcodeTable w i := by
  refine ⟨rowReads_of_decode, ?_⟩
  rintro ⟨r, hr, hs, rfl⟩
  exact decode_of_mem_opcodeTable hr hs

/-- A row that selects a word gives the decoder's answer (R74). -/
theorem decode_of_selects (hr : r ∈ opcodeTable) (hs : r.selects w = true) : decode w = .ok (r.operands w) :=
  decode_eq_ok_iff.mpr ⟨r, hr, OpcodeRow.selects_iff.mp hs, rfl⟩

/-- A word no row selects does not decode (R74). -/
theorem decode_of_no_row (hnone : ∀ r ∈ opcodeTable, r.selects w = false) : decode w = .error (.unknownOpcode w) := by
  cases h : decode w with
  | error e => rw [decode_error w e h]
  | ok i =>
    obtain ⟨r, hr, hs, -⟩ := decode_eq_ok_iff.mp h
    exact absurd (OpcodeRow.selects_iff.mpr hs) (by simp [hnone r hr])

/-! ## Encoding what a row reads gives the word back, unless the row ignores a field -/

/-! A word put together again from its fields, in each format of an operand (R71); the constant bits are given as `k`. -/

theorem ofNat_op_nnn (k : Nat) (hk : (fieldOp w).toNat * 0x1000 = k) :
    BitVec.ofNat 16 (k + (fieldNNN w).toNat) = w := by
  apply BitVec.eq_of_toNat_eq
  rw [← hk, BitVec.toNat_ofNat, fieldOp_toNat, fieldNNN_toNat]
  omega

theorem ofNat_op_x_nn (k : Nat) (hk : (fieldOp w).toNat * 0x1000 = k) :
    BitVec.ofNat 16 (k + 0x100 * (fieldX w).val + (fieldNN w).toNat) = w := by
  apply BitVec.eq_of_toNat_eq
  rw [← hk, BitVec.toNat_ofNat, fieldOp_toNat, fieldX_val, fieldNN_toNat]
  omega

theorem ofNat_op_x_y_n (k : Nat) (hk : (fieldOp w).toNat * 0x1000 = k) :
    BitVec.ofNat 16 (k + 0x100 * (fieldX w).val + 0x10 * (fieldY w).val + (fieldN w).toNat) = w := by
  apply BitVec.eq_of_toNat_eq
  rw [← hk, BitVec.toNat_ofNat, fieldOp_toNat, fieldX_val, fieldY_val, fieldN_toNat]
  omega

theorem ofNat_opN_x_y (k : Nat) (hk : (fieldOp w).toNat * 0x1000 + (fieldN w).toNat = k) :
    BitVec.ofNat 16 (k + 0x100 * (fieldX w).val + 0x10 * (fieldY w).val) = w := by
  apply BitVec.eq_of_toNat_eq
  rw [← hk, BitVec.toNat_ofNat, fieldOp_toNat, fieldX_val, fieldY_val, fieldN_toNat]
  omega

theorem ofNat_opNN_x (k : Nat) (hk : (fieldOp w).toNat * 0x1000 + (fieldNN w).toNat = k) :
    BitVec.ofNat 16 (k + 0x100 * (fieldX w).val) = w := by
  apply BitVec.eq_of_toNat_eq
  rw [← hk, BitVec.toNat_ofNat, fieldOp_toNat, fieldX_val, fieldNN_toNat]
  omega

/-! Row by row: the row's operands and the pattern's fields are the word's fields. -/

theorem encode_of_mem_opcodeRows1To9 (hr : r ∈ opcodeRows1To9) (hs : w &&& r.mask = r.pattern) :
    encode (r.operands w) = w := by
  unfold opcodeRows1To9 at hr
  fin_cases hr
  · exact hs.symm.trans BitVec.and_allOnes
  · exact hs.symm.trans BitVec.and_allOnes
  · exact ofNat_op_nnn _ (by rw [fieldOp_of_selects hs rfl]; rfl)
  · exact ofNat_op_nnn _ (by rw [fieldOp_of_selects hs rfl]; rfl)
  · exact ofNat_op_x_nn _ (by rw [fieldOp_of_selects hs rfl]; rfl)
  · exact ofNat_op_x_nn _ (by rw [fieldOp_of_selects hs rfl]; rfl)
  · exact ofNat_opN_x_y _ (by rw [fieldOp_of_selects hs rfl, fieldN_of_selects hs rfl]; rfl)
  · exact ofNat_op_x_nn _ (by rw [fieldOp_of_selects hs rfl]; rfl)
  · exact ofNat_op_x_nn _ (by rw [fieldOp_of_selects hs rfl]; rfl)

theorem encode_of_mem_opcodeRows10To18 (hr : r ∈ opcodeRows10To18) (hs : w &&& r.mask = r.pattern)
    (hshr : ∀ x, r.operands w ≠ .shrVx x) (hshl : ∀ x, r.operands w ≠ .shlVx x) : encode (r.operands w) = w := by
  unfold opcodeRows10To18 at hr
  fin_cases hr
  -- `8XYE` and `8XY6` lose their `Y`.
  on_goal 9 => exact absurd rfl (hshl _)
  on_goal 7 => exact absurd rfl (hshr _)
  all_goals exact ofNat_opN_x_y _ (by rw [fieldOp_of_selects hs rfl, fieldN_of_selects hs rfl]; rfl)

theorem encode_of_mem_opcodeRows19To25 (hr : r ∈ opcodeRows19To25) (hs : w &&& r.mask = r.pattern) :
    encode (r.operands w) = w := by
  unfold opcodeRows19To25 at hr
  fin_cases hr
  · exact ofNat_opN_x_y _ (by rw [fieldOp_of_selects hs rfl, fieldN_of_selects hs rfl]; rfl)
  · exact ofNat_op_nnn _ (by rw [fieldOp_of_selects hs rfl]; rfl)
  · exact ofNat_op_nnn _ (by rw [fieldOp_of_selects hs rfl]; rfl)
  · exact ofNat_op_x_nn _ (by rw [fieldOp_of_selects hs rfl]; rfl)
  · exact ofNat_op_x_y_n _ (by rw [fieldOp_of_selects hs rfl]; rfl)
  · exact ofNat_opNN_x _ (by rw [fieldOp_of_selects hs rfl, fieldNN_of_selects hs rfl]; rfl)
  · exact ofNat_opNN_x _ (by rw [fieldOp_of_selects hs rfl, fieldNN_of_selects hs rfl]; rfl)

theorem encode_of_mem_opcodeRows26To34 (hr : r ∈ opcodeRows26To34) (hs : w &&& r.mask = r.pattern) :
    encode (r.operands w) = w := by
  unfold opcodeRows26To34 at hr
  fin_cases hr
  all_goals exact ofNat_opNN_x _ (by rw [fieldOp_of_selects hs rfl, fieldNN_of_selects hs rfl]; rfl)

/-- The encoder gives back the word an instruction was decoded from, unless the decoder ignored a field of it (R77). -/
theorem encode_of_decode (h : decode w = .ok i) (hshr : ∀ x, i ≠ .shrVx x) (hshl : ∀ x, i ≠ .shlVx x) :
    encode i = w := by
  obtain ⟨r, hr, hs, rfl⟩ := decode_eq_ok_iff.mp h
  rcases mem_opcodeTable_iff.mp hr with hr | hr | hr | hr
  · exact encode_of_mem_opcodeRows1To9 hr hs
  · exact encode_of_mem_opcodeRows10To18 hr hs hshr hshl
  · exact encode_of_mem_opcodeRows19To25 hr hs
  · exact encode_of_mem_opcodeRows26To34 hr hs

end

/-- Settles O2: the row that `find?` answers decodes the word, and where it answers none no row selects the word. -/
theorem decodeFollowsTheOpcodeTable : Obligations.DecodeFollowsTheOpcodeTable := by
  refine ⟨fun w => ?_, fun w r => decode_of_selects, fun w => decode_of_no_row⟩
  unfold decodeByTable
  split
  next r hfind =>
    have hs : r.selects w = true := List.find?_some (p := fun q : OpcodeRow => q.selects w) hfind
    exact decode_of_selects (List.mem_of_find?_eq_some hfind) hs
  next hfind => exact decode_of_no_row (by simpa using List.find?_eq_none.mp hfind)

/-- Every word of family 8 whose last nibble is 6 or E decodes to the shift of its `X` (R77). -/
theorem decode_shift (x y : Reg) :
    decode (BitVec.ofNat 16 (0x8006 + 0x100 * x.val + 0x10 * y.val)) = .ok (.shrVx x) ∧
    decode (BitVec.ofNat 16 (0x800E + 0x100 * x.val + 0x10 * y.val)) = .ok (.shlVx x) := by
  constructor
  · rw [decode_eq_decodeFamily8 (fieldOp_ofNat _ 8 (by omega) (by omega)), decodeFamily8,
      fieldN_ofNat _ 0x6 (by omega), fieldX_ofNat _ x (by omega)]
    rfl
  · rw [decode_eq_decodeFamily8 (fieldOp_ofNat _ 8 (by omega) (by omega)), decodeFamily8,
      fieldN_ofNat _ 0xE (by omega), fieldX_ofNat _ x (by omega)]
    rfl

/-- Settles O6: two words that decode to one instruction other than a shift are both its encoding. -/
theorem onlyShiftsIgnoreAField : Obligations.OnlyShiftsIgnoreAField :=
  ⟨decode_shift, fun _ _ _ hw hu hshr hshl => (encode_of_decode hw hshr hshl).symm.trans (encode_of_decode hu hshr hshl)⟩

/-- Settles O5: a word below 0x1000 is of family 0, which names two words; nibble B alone selects `JP V0,NNN`. -/
theorem zeroFamilyAndBFamily : Obligations.ZeroFamilyAndBFamily := by
  refine ⟨fun w hw hcls hret => ?_, fun nnn => ?_⟩
  · have hop : fieldOp w = 0x0#4 := by
      apply BitVec.eq_of_toNat_eq
      rw [fieldOp_toNat]
      exact Nat.div_eq_of_lt hw
    rw [decode_eq_decodeFamily0 hop]
    unfold decodeFamily0
    split
    · exact absurd rfl hcls
    · exact absurd rfl hret
    · rfl
  · rw [decode, fieldOp_ofNat _ 0xB (by omega) (by omega)]
    show Except.ok (Instr.jpV0Nnn (fieldNNN _)) = _
    rw [fieldNNN_ofNat _ nnn.toNat (by omega), BitVec.ofNat_toNat, BitVec.setWidth_eq]

end Sys2Proof
end

section
/-! SUPPORT. The step cycle (40_step_cycle): what a latched fault or an awaited key makes of each operation (R101), how the
fetch reads the word at `PC` or faults (R102), and the statements O10 and O11. -/

namespace Sys2Proof.Machine

open Sys2Proof.Safety

section
variable {s t : State} {o : Op}

/-! ### Halted and waiting cores -/

theorem step_of_fault (hf : s.fault ≠ none) : step s = .next s :=
  step_not_running s (Bool.eq_false_iff.mpr fun hr => hf (s.running_iff.mp hr).1)

theorem step_of_awaiting (hw : s.awaiting = true) : step s = .next s :=
  step_not_running s (Bool.eq_false_iff.mpr fun hr => Bool.false_ne_true ((s.running_iff.mp hr).2.symm.trans hw))

theorem stepReport_of_fault (hf : s.fault ≠ none) : stepReport s t = .halted :=
  if_pos (Option.isSome_iff_ne_none.mpr hf)

theorem stepReport_of_awaiting (hf : s.fault = none) (hw : s.awaiting = true) : stepReport s t = .waiting := by
  simp [stepReport, hf, hw]

@[simp] theorem load_fault (image : List Byte) : (load image s).2.fault = s.fault := by
  unfold load; split <;> rfl

@[simp] theorem load_awaiting (image : List Byte) : (load image s).2.awaiting = s.awaiting := by
  unfold load; split <;> rfl

/-- A latched fault outlives every operation but `Reset` (R101, 60_exceptions R218). -/
theorem applyOp_fault_of_halted (hf : s.fault ≠ none) (ho : o ≠ .reset) (h : applyOp o s = .next t) :
    t.fault = s.fault := by
  cases o with
  | reset => exact absurd rfl ho
  | load image => cases h; exact load_fault image
  | setKeys k => cases h; rfl
  | keyDeliver k => cases h; exact keyDeliver_fault s k
  | step => cases (step_of_fault hf).symm.trans h; rfl
  | tickTimers => cases h; rfl

/-- A wait outlives every operation but `Reset` and `KeyDeliver` (R101, 45_keypad R196). -/
theorem applyOp_awaiting_of_waiting (hw : s.awaiting = true) (ho : o ≠ .reset) (hk : ∀ k, o ≠ .keyDeliver k)
    (h : applyOp o s = .next t) : t.awaiting = true := by
  cases o with
  | reset => exact absurd rfl ho
  | load image => cases h; exact (load_awaiting image).trans hw
  | setKeys k => cases h; exact hw
  | keyDeliver k => exact absurd rfl (hk k)
  | step => cases (step_of_awaiting hw).symm.trans h; exact hw
  | tickTimers => cases h; exact hw

/-! ### The fetch -/

/-- Raising a fault leaves no trace but the latch (60_exceptions R215). -/
theorem raised_raise (s : State) (f : Fault) : Raised f s (s.raise f) := by
  refine ⟨rfl, rfl, fun p hp => ?_⟩
  cases p with
  | fault => exact absurd (List.mem_singleton_self _) hp
  | regs => exact fun _ => rfl
  | memory => exact fun _ => rfl
  | stack => exact ⟨rfl, rfl⟩
  | wait => exact ⟨rfl, rfl⟩
  | index | delayTimer | soundTimer | display | keys | draws => rfl

/-- A running core whose `PC` leaves no room for a word raises `MemoryOutOfBounds` at the address `a` past memory. -/
theorem step_fetch_outside (hf : s.fault = none) (hw : s.awaiting = false) (hp : s.pc.toNat > 0xFFE) {a : Word}
    (ha : a.toNat = max s.pc.toNat 0x1000) : step s = .next (s.raise (.memoryOutOfBounds a)) := by
  have haddr : BitVec.ofNat 16 (max s.pc.toNat 0x1000) = a := by rw [← ha, BitVec.ofNat_toNat, BitVec.setWidth_eq]
  rw [step_raise s _ (s.running_iff.mpr ⟨hf, hw⟩) (s.fetchDecode_outside hp), haddr]

/-- A running core whose word does not decode raises `UnknownOpcode` with that word (R102, 60_exceptions R211). -/
theorem step_undecoded (h : CanFetch s) {e : DecodeError}
    (hd : decode (Memory.readWord s.mem s.pc.toNat) = .error e) :
    step s = .next (s.raise (.unknownOpcode (Memory.readWord s.mem s.pc.toNat))) := by
  obtain ⟨hf, hw, hp⟩ := h
  apply step_raise s _ (s.running_iff.mpr ⟨hf, hw⟩)
  rw [s.fetchDecode_inside hp, hd]

theorem step_decoded (h : CanFetch s) {i : Instr} (hd : decode (Memory.readWord s.mem s.pc.toNat) = .ok i) :
    step s = exec i s := by
  obtain ⟨hf, hw, hp⟩ := h
  exact step_exec s i (s.running_iff.mpr ⟨hf, hw⟩) hp hd

/-- The fetched word is the two bytes at `PC`, high byte first (20_memory R53). -/
theorem readWord_eq_readByte (s : State) (a : Nat) :
    Memory.readWord s.mem a = BitVec.ofNat 16 ((s.readByte a).toNat * 256 + (s.readByte (a + 1)).toNat) := rfl

end

/-- Settles O10: a core that does not run is left alone by `Step`, the timers and keys do not read the latches, and each
operation but the latch's owners keeps it. -/
theorem haltedOrWaitingStepChangesNothing : Obligations.HaltedOrWaitingStepChangesNothing :=
  ⟨fun _ hf => ⟨step_of_fault hf, stepReport_of_fault hf⟩,
    fun _ hf hw => ⟨step_of_awaiting hw, stepReport_of_awaiting hf hw⟩,
    fun _ _ _ _ => ⟨rfl, rfl⟩,
    fun _ _ _ h ho => ⟨fun hf => (applyOp_fault_of_halted hf ho h).trans_ne hf,
      fun hw hk => applyOp_awaiting_of_waiting hw ho hk h⟩⟩

/-- Settles O11: out of range the fetch faults at the first address past memory; in range the word's decoding decides. -/
theorem fetchIsBoundsCheckedOnly : Obligations.FetchIsBoundsCheckedOnly := by
  refine ⟨fun s hf hw hp => ?_, fun s hf hw hp => ?_, fun s h => ?_⟩
  · exact ⟨_, step_fetch_outside hf hw (by omega) (by rw [hp]; rfl), raised_raise s _⟩
  · exact ⟨_, step_fetch_outside hf hw (by omega) (by omega), raised_raise s _⟩
  · rw [← readWord_eq_readByte]
    cases hd : decode (Memory.readWord s.mem s.pc.toNat) with
    | ok i => exact step_decoded h hd
    | error e => exact step_undecoded h hd

end Sys2Proof.Machine
end

section
/-! SUPPORT. Control flow (41_control_flow): the word format that a row of the opcode table gives its instruction
(30_encoding R76), what a jump, a skip, a push and a pop leave unchanged, and the statements O27, O28, O29, O30 and O32. -/

namespace Sys2Proof.Safety

open Sys2Proof.Machine

/-- Row `k + 1` of the table of R76 says how its words decode. -/
theorem encodedAs_row (k : Nat) (hk : k < opcodeTable.length := by decide) :
    EncodedAs opcodeTable[k].pattern opcodeTable[k].mask opcodeTable[k].operands :=
  fun _ hs => decode_of_mem_opcodeTable (List.getElem_mem hk) hs

/-! ### Frames of the operations that move `PC` -/

section
variable {s t : State}

theorem SamePart.refl (p : Part) (s : State) : SamePart p s s := by
  cases p with
  | regs | memory => exact fun _ => rfl
  | stack | wait => exact ⟨rfl, rfl⟩
  | index | delayTimer | soundTimer | display | keys | fault | draws => rfl

/-- No part that a frame speaks of reads `PC`. -/
theorem samePart_jump_iff (p : Part) (a : Word) : SamePart p s (t.jump a) ↔ SamePart p s t := by
  cases p <;> exact Iff.rfl

/-- A jump adds nothing to what a frame lists as changed. -/
theorem FrameBut.jump {changed : List Part} (h : FrameBut changed s t) (a : Word) : FrameBut changed s (t.jump a) :=
  fun p hp => (samePart_jump_iff p a).mpr (h p hp)

theorem FrameBut.refl (changed : List Part) (s : State) : FrameBut changed s s := fun p _ => .refl p s

theorem frameBut_jump (s : State) (a : Word) : FrameBut [] s (s.jump a) := (FrameBut.refl [] s).jump a

/-- The default advance and the skip are jumps to addresses after the instruction (40_step_cycle R103). -/
theorem frameBut_skipIf (s : State) (c : Bool) : FrameBut [] s (s.skipIf c) := by
  cases c with
  | true => exact frameBut_jump s (s.pcNext + 2)
  | false => exact frameBut_jump s s.pcNext

theorem frameBut_setStack (s : State) (stack : Vector Word 16) (sp : Fin 17) :
    FrameBut [.stack] s { s with stack := stack, sp := sp } := by
  intro p hp
  cases p with
  | stack => exact absurd (List.mem_singleton_self _) hp
  | regs | memory => exact fun _ => rfl
  | wait => exact ⟨rfl, rfl⟩
  | index | delayTimer | soundTimer | display | keys | fault | draws => rfl

end

end Sys2Proof.Safety

namespace Sys2Proof.Machine

open Sys2Proof.Safety

section
variable {s : State}

/-! ### The stack, with `SP` named by a slot -/

/-- A pop from a stack that holds `j + 1` entries answers slot `j` (10_state R27). -/
theorem State.pop_of_sp_eq {j : Fin 16} (hj : s.sp.val = j.val + 1) :
    s.pop = some (s.stack[j], { s with sp := j.castSucc }) := by
  rw [State.pop_of_pos s (by omega)]
  simp [hj, Fin.ext_iff]

/-- A push onto a stack that holds `j` entries writes slot `j` (R27). -/
theorem State.push_of_sp_eq {j : Fin 16} (hj : s.sp.val = j.val) (a : Word) :
    s.push a = some { s with stack := s.stack.set j.val a, sp := j.succ } := by
  rw [State.push_of_lt s a (by omega)]
  simp [hj, Fin.ext_iff]

/-! ### What each instruction answers -/

theorem exec_ret_of_sp_eq {j : Fin 16} (hj : s.sp.val = j.val + 1) :
    exec .ret s = .next (State.jump { s with sp := j.castSucc } s.stack[j]) := by
  rw [exec, execRet, State.pop_of_sp_eq hj]

theorem exec_ret_of_sp_zero (h0 : s.sp.val = 0) : exec .ret s = .next (s.raise .stackUnderflow) := by
  rw [exec, execRet, State.pop_empty s (Fin.ext h0)]

theorem exec_callNnn_of_sp_eq (nnn : BitVec 12) {j : Fin 16} (hj : s.sp.val = j.val) :
    exec (.callNnn nnn) s =
      .next (State.jump { s with stack := s.stack.set j.val (s.pc + 2), sp := j.succ } (addressOf nnn)) := by
  rw [exec, execCallNnn, State.push_of_sp_eq hj, State.pcNext_eq]

theorem exec_callNnn_of_sp_full (nnn : BitVec 12) (h16 : s.sp.val = 16) :
    exec (.callNnn nnn) s = .next (s.raise .stackOverflow) := by
  rw [exec, execCallNnn, State.push_full s _ (Fin.ext h16)]

theorem exec_jpNnn (nnn : BitVec 12) (s : State) : exec (.jpNnn nnn) s = .next (s.jump (addressOf nnn)) := rfl

theorem exec_jpV0Nnn (nnn : BitVec 12) (s : State) :
    exec (.jpV0Nnn nnn) s = .next (s.jump (addressOf nnn + (s.reg 0).toWord)) := rfl

/-- `NNN + V0` is at most 0x10FE, so the sum does not wrap (41_control_flow R129). -/
theorem addressOf_add_toWord_toNat (nnn : BitVec 12) (b : Byte) :
    (addressOf nnn + b.toWord).toNat = nnn.toNat + b.toNat := by
  have hn := nnn.isLt
  have hb := b.isLt
  rw [BitVec.toNat_add, addressOf_toNat, BitVec.toNat_setWidth]
  omega

theorem State.jump_pc_self (s : State) : s.jump s.pc = s := rfl

/-- A jump of a running core out of memory is accepted, and the next step's fetch faults (40_step_cycle R102). -/
theorem step_jump_outside (hf : s.fault = none) (hw : s.awaiting = false) {target a : Word} (ht : target.toNat > 0xFFE)
    (ha : a.toNat = max target.toNat 0x1000) :
    step (s.jump target) = .next ((s.jump target).raise (.memoryOutOfBounds a)) :=
  step_fetch_outside (s := s.jump target) hf hw ht ha

/-! ### The skips (41_control_flow R128) -/

theorem add_two_add_two (pc : Word) : pc + 2 + 2 = pc + 4 := BitVec.add_assoc pc 2 2

theorem State.skipIf_beq_pc (a b : Byte) : (s.skipIf (a == b)).pc = if a = b then s.pc + 4 else s.pc + 2 := by
  simp only [State.skipIf_pc, beq_iff_eq, add_two_add_two]

theorem State.skipIf_bne_pc (a b : Byte) : (s.skipIf (a != b)).pc = if a = b then s.pc + 2 else s.pc + 4 := by
  simp only [State.skipIf_pc, bne_iff_ne, ne_eq, ite_not, add_two_add_two]

/-- The skips on two registers need `N = 0` (30_encoding R78). -/
theorem decode_registerSkip_of_nonzero {w : Word} (hop : w.toNat / 4096 = 5 ∨ w.toNat / 4096 = 9)
    (hn : w.toNat % 16 ≠ 0) : decode w = .error (.unknownOpcode w) := by
  have hN : fieldN w ≠ 0 := fun h => hn (by rw [← fieldN_toNat, h]; rfl)
  rw [← fieldOp_toNat] at hop
  rcases hop with h5 | h9
  · rw [decode, BitVec.eq_of_toNat_eq (y := 0x5#4) h5]
    exact if_neg hN
  · rw [decode, BitVec.eq_of_toNat_eq (y := 0x9#4) h9]
    exact if_neg hN

end

/-- Settles O27: `RET` jumps to the popped slot; on an empty stack the pop fails and the fault is raised. -/
theorem retPopsOrUnderflows : Obligations.RetPopsOrUnderflows := by
  refine ⟨encodedAs_row 1, fun s j hj => ?_, fun s h0 => ?_⟩
  · exact ⟨_, exec_ret_of_sp_eq hj, rfl, rfl, rfl, (frameBut_setStack s _ _).jump _⟩
  · exact ⟨_, exec_ret_of_sp_zero h0, raised_raise s _⟩

/-- Settles O28: `JP` is a jump and nothing else; the jump to `PC` itself changes nothing, and 0xFFF leaves no room for a
word. -/
theorem jpJumps : Obligations.JpJumps := by
  refine ⟨encodedAs_row 2, fun nnn s => ?_, fun nnn s hpc => ?_, fun s hf hw => ?_⟩
  · exact ⟨_, exec_jpNnn nnn s, addressOf_toNat nnn, frameBut_jump s _⟩
  · have htarget : addressOf nnn = s.pc := BitVec.eq_of_toNat_eq (by rw [addressOf_toNat, hpc])
    rw [exec_jpNnn, htarget, State.jump_pc_self]
  · exact ⟨_, _, exec_jpNnn _ s, step_jump_outside hf hw (by decide) (by decide), raised_raise _ _⟩

/-- Settles O29: `CALL` pushes into slot `SP` and jumps; onto a full stack the push fails and the fault is raised. -/
theorem callPushesOrOverflows : Obligations.CallPushesOrOverflows := by
  refine ⟨encodedAs_row 3, fun nnn s j hj => ?_, fun nnn s h16 => ?_⟩
  · have hsame : (s.stack.set j.val (s.pc + 2))[j] = s.pc + 2 := Vector.getElem_set_self j.isLt
    have hother : ∀ k : Fin 16, k ≠ j → (s.stack.set j.val (s.pc + 2))[k] = s.stack[k] := fun k hk =>
      Vector.getElem_set_ne j.isLt k.isLt (Fin.val_ne_of_ne hk.symm)
    exact ⟨_, exec_callNnn_of_sp_eq nnn hj, hsame, hother, rfl, addressOf_toNat nnn, (frameBut_setStack s _ _).jump _⟩
  · exact ⟨_, exec_callNnn_of_sp_full nnn h16, raised_raise s _⟩

/-- Settles O30: the jump's target is the exact sum, and a target above 0xFFE fails the next fetch. -/
theorem jpV0AddsV0 : Obligations.JpV0AddsV0 := by
  refine ⟨encodedAs_row 20, fun nnn s => ?_, fun nnn s hf hw hsum => ?_⟩
  · exact ⟨_, exec_jpV0Nnn nnn s, addressOf_add_toWord_toNat nnn (s.reg 0), frameBut_jump s _⟩
  · rw [← addressOf_add_toWord_toNat] at hsum ⊢
    have haddr := reportedAddress_toNat (addressOf nnn + (s.reg 0).toWord)
    exact ⟨_, _, _, exec_jpV0Nnn nnn s, step_jump_outside hf hw hsum haddr, haddr, raised_raise _ _⟩

/-- Settles O32: each skip is `skipIf` of its comparison, and only `N = 0` selects the two-register forms. -/
theorem registerSkips : Obligations.RegisterSkips := by
  refine ⟨encodedAs_row 4, encodedAs_row 5, encodedAs_row 6, encodedAs_row 18, fun w => decode_registerSkip_of_nonzero,
    fun x y nn s => ⟨?_, ?_, ?_, ?_⟩⟩
  · exact ⟨_, rfl, State.skipIf_beq_pc (s.reg x) nn, frameBut_skipIf s _⟩
  · exact ⟨_, rfl, State.skipIf_bne_pc (s.reg x) nn, frameBut_skipIf s _⟩
  · exact ⟨_, rfl, State.skipIf_beq_pc (s.reg x) (s.reg y), frameBut_skipIf s _⟩
  · exact ⟨_, rfl, State.skipIf_bne_pc (s.reg x) (s.reg y), frameBut_skipIf s _⟩

end Sys2Proof.Machine
end

section
/-! SUPPORT. Register load, arithmetic, logic and shift (42_load_alu): what a register write with the default advance
leaves unchanged, what the byte operations and flags are as numbers, and the statements O33 to O38. -/

namespace Sys2Proof.Safety

open Sys2Proof.Machine

section
variable {s t : State} {changed : List Part}

/-- A register write adds nothing to a frame that lists the registers as changed. -/
theorem FrameBut.setReg (h : FrameBut changed s t) (hregs : .regs ∈ changed) (x : Reg) (b : Byte) :
    FrameBut changed s (t.setReg x b) := by
  intro p hp
  cases p with
  | regs => exact absurd hregs hp
  | index | stack | delayTimer | soundTimer | memory | display | keys | wait | fault | draws => exact h _ hp

theorem FrameBut.setRegFlag (h : FrameBut changed s t) (hregs : .regs ∈ changed) (x : Reg) (b f : Byte) :
    FrameBut changed s (t.setRegFlag x b f) :=
  (h.setReg hregs x b).setReg hregs vf f

/-- The default advance is a jump to the next word (40_step_cycle R103). -/
theorem FrameBut.advance (h : FrameBut changed s t) : FrameBut changed s t.advance := h.jump t.pcNext

theorem sameRegsBut_setReg (s : State) (x : Reg) (b : Byte) : SameRegsBut [x] s (s.setReg x b) := fun r hr => by
  rw [State.setReg_reg, if_neg (List.ne_of_not_mem_cons hr)]

theorem sameRegsBut_setRegFlag (s : State) (x : Reg) (b f : Byte) : SameRegsBut [x, vf] s (s.setRegFlag x b f) := by
  intro r hr
  rw [List.mem_pair, not_or] at hr
  rw [State.setRegFlag_reg, if_neg hr.2, if_neg hr.1]

/-- An instruction that writes `V[X]` and advances does nothing else. -/
theorem setReg_advance_only (s : State) (x : Reg) (b : Byte) :
    (s.setReg x b).advance.pc = s.pc + 2 ∧ SameRegsBut [x] s (s.setReg x b).advance ∧
      FrameBut [.regs] s (s.setReg x b).advance :=
  ⟨rfl, sameRegsBut_setReg s x b, ((FrameBut.refl _ s).setReg (List.mem_singleton_self _) x b).advance⟩

/-- An instruction that writes `V[X]`, then the flag, and advances does nothing else. -/
theorem setRegFlag_advance_only (s : State) (x : Reg) (b f : Byte) :
    (s.setRegFlag x b f).advance.pc = s.pc + 2 ∧ SameRegsBut [x, vf] s (s.setRegFlag x b f).advance ∧
      FrameBut [.regs] s (s.setRegFlag x b f).advance :=
  ⟨rfl, sameRegsBut_setRegFlag s x b f, ((FrameBut.refl _ s).setRegFlag (List.mem_singleton_self _) x b f).advance⟩

end

end Sys2Proof.Safety

namespace Sys2Proof.Machine

open Sys2Proof.Safety

/-! ### The register and the flag that an instruction writes, read back -/

theorem State.setReg_advance_reg_self (s : State) (x : Reg) (b : Byte) : (s.setReg x b).advance.reg x = b := by
  rw [State.advance_reg, State.setReg_reg, if_pos rfl]

theorem State.setRegFlag_advance_reg_vf (s : State) (x : Reg) (b f : Byte) :
    (s.setRegFlag x b f).advance.reg vf = f := by
  rw [State.advance_reg, State.setRegFlag_reg, if_pos rfl]

/-- The result stays in `V[X]` unless the flag overwrites it (10_state R23). -/
theorem State.setRegFlag_advance_reg_of_ne (s : State) {x : Reg} (hx : x ≠ vf) (b f : Byte) :
    (s.setRegFlag x b f).advance.reg x = b := by
  rw [State.advance_reg, State.setRegFlag_reg, if_neg hx, if_pos rfl]

/-! ### Byte operations and flags as numbers -/

/-- Subtraction is exact modulo 256 (R147, R149). -/
theorem byte_sub_toNat (a b : Byte) : ((a - b).toNat : Int) = (a.toNat - b.toNat : Int) % 256 := by
  have hb := b.isLt
  rw [BitVec.toNat_sub]
  omega

theorem byte_shiftRight_one_toNat (a : Byte) : (a >>> 1).toNat = a.toNat / 2 := by
  rw [BitVec.toNat_ushiftRight, Nat.shiftRight_eq_div_pow, pow_one]

theorem byte_shiftLeft_one_toNat (a : Byte) : (a <<< 1).toNat = a.toNat * 2 % 256 := by
  rw [BitVec.toNat_shiftLeft, Nat.shiftLeft_eq, pow_one]

theorem flagByte_decide (p : Prop) [Decidable p] : flagByte (decide p) = if p then 1 else 0 := by
  by_cases hp : p <;> simp [flagByte, hp]

theorem carryFlag_eq (a b : Byte) : carryFlag a b = if a.toNat + b.toNat > 255 then 1 else 0 := flagByte_decide _

theorem notBorrowFlag_eq (a b : Byte) : notBorrowFlag a b = if a.toNat ≥ b.toNat then 1 else 0 := flagByte_decide _

theorem byte_and_one_toNat (a : Byte) : (a &&& 1).toNat = a.toNat % 2 := by
  rw [BitVec.toNat_and]
  exact Nat.and_one_is_mod a.toNat

/-- Old bit 0 (R148). -/
theorem shiftRightFlag_toNat (a : Byte) : (shiftRightFlag a).toNat = a.toNat % 2 := byte_and_one_toNat a

/-- Old bit 7 (R150). -/
theorem shiftLeftFlag_toNat (a : Byte) : (shiftLeftFlag a).toNat = a.toNat / 128 := by
  have ha := a.isLt
  rw [shiftLeftFlag, byte_and_one_toNat, BitVec.toNat_ushiftRight, Nat.shiftRight_eq_div_pow]
  omega

/-! ### The statements -/

/-- Settles O33: each is a write of `V[X]` with its source, read from the old state. -/
theorem registerLoads : Obligations.RegisterLoads := by
  refine ⟨encodedAs_row 7, encodedAs_row 9, encodedAs_row 25, fun x y nn s => ⟨?_, ?_, ?_⟩⟩
  · exact ⟨_, rfl, s.setReg_advance_reg_self x nn, setReg_advance_only s x nn⟩
  · exact ⟨_, rfl, s.setReg_advance_reg_self x (s.reg y), setReg_advance_only s x _⟩
  · exact ⟨_, rfl, s.setReg_advance_reg_self x s.dt, setReg_advance_only s x _⟩

/-- Settles O34: byte addition is addition modulo 256, and only `V[X]` is written. -/
theorem addImmediateWrapsWithoutFlag : Obligations.AddImmediateWrapsWithoutFlag := by
  refine ⟨encodedAs_row 8, fun x nn s => ⟨_, rfl, ?_, setReg_advance_only s x _⟩⟩
  rw [State.setReg_advance_reg_self, BitVec.toNat_add]

/-- Settles O35: the byte operations act on each bit, and only `V[X]` is written. -/
theorem logicWorksBitByBit : Obligations.LogicWorksBitByBit := by
  refine ⟨encodedAs_row 10, encodedAs_row 11, encodedAs_row 12, fun x y s => ⟨?_, ?_, ?_⟩⟩
  · refine ⟨_, rfl, fun j => ?_, setReg_advance_only s x _⟩
    rw [State.setReg_advance_reg_self, BitVec.getLsbD_or]
  · refine ⟨_, rfl, fun j => ?_, setReg_advance_only s x _⟩
    rw [State.setReg_advance_reg_self, BitVec.getLsbD_and]
  · refine ⟨_, rfl, fun j => ?_, setReg_advance_only s x _⟩
    rw [State.setReg_advance_reg_self, BitVec.getLsbD_xor]

/-- Settles O36: the sum goes to `V[X]` first, then the carry of the old values to `VF`. -/
theorem addSetsTheCarry : Obligations.AddSetsTheCarry := by
  refine ⟨encodedAs_row 13, fun x y s => ⟨_, rfl, fun hx => ?_, ?_, setRegFlag_advance_only s x _ _⟩⟩
  · rw [s.setRegFlag_advance_reg_of_ne hx, BitVec.toNat_add]
  · rw [State.setRegFlag_advance_reg_vf, carryFlag_eq]

/-- Settles O37: the difference goes to `V[X]` first, then the comparison of the old values to `VF`. -/
theorem subtractionsSetNotBorrow : Obligations.SubtractionsSetNotBorrow := by
  refine ⟨encodedAs_row 14, encodedAs_row 16,
    fun x y s => ⟨_, rfl, fun hx => ?_, ?_, setRegFlag_advance_only s x _ _⟩,
    fun x y s => ⟨_, rfl, fun hx => ?_, ?_, setRegFlag_advance_only s x _ _⟩⟩
  · rw [s.setRegFlag_advance_reg_of_ne hx, byte_sub_toNat]
  · rw [State.setRegFlag_advance_reg_vf, notBorrowFlag_eq]
  · rw [s.setRegFlag_advance_reg_of_ne hx, byte_sub_toNat]
  · rw [State.setRegFlag_advance_reg_vf, notBorrowFlag_eq]

/-- Settles O38: the rows of both shifts take no `Y` from the word, and the bit shifted out is written last. -/
theorem shiftsMoveByOne : Obligations.ShiftsMoveByOne := by
  refine ⟨encodedAs_row 15, encodedAs_row 17,
    fun x s => ⟨_, rfl, fun hx => ?_, ?_, setRegFlag_advance_only s x _ _⟩,
    fun x s => ⟨_, rfl, fun hx => ?_, ?_, setRegFlag_advance_only s x _ _⟩⟩
  · rw [s.setRegFlag_advance_reg_of_ne hx, byte_shiftRight_one_toNat]
  · rw [State.setRegFlag_advance_reg_vf, shiftRightFlag_toNat]
  · rw [s.setRegFlag_advance_reg_of_ne hx, byte_shiftLeft_one_toNat]
  · rw [State.setRegFlag_advance_reg_vf, shiftLeftFlag_toNat]

end Sys2Proof.Machine
end

section
/-! SUPPORT. Index register and memory (43_index_memory): what a write of `I`, a block store and a block load leave
unchanged, what an access at `I` answers in range and out of range (20_memory R54), the operands as numbers, and the
statements O40 to O43. -/

namespace Sys2Proof.Safety

open Sys2Proof.Machine

/-! ### Frames of the operations on `I`, memory and the register block -/

theorem frameBut_setIndex (s : State) (a : Word) : FrameBut [.index] s { s with i := a } := by
  intro p hp
  cases p with
  | index => exact absurd (List.mem_singleton_self _) hp
  | regs | memory => exact fun _ => rfl
  | stack | wait => exact ⟨rfl, rfl⟩
  | delayTimer | soundTimer | display | keys | fault | draws => rfl

theorem frameBut_writeBlock (s : State) (a : Nat) (bs : List Byte) : FrameBut [.memory] s (s.writeBlock a bs) := by
  intro p hp
  cases p with
  | memory => exact absurd (List.mem_singleton_self _) hp
  | regs => exact fun _ => rfl
  | stack | wait => exact ⟨rfl, rfl⟩
  | index | delayTimer | soundTimer | display | keys | fault | draws => rfl

theorem frameBut_setRegs (s : State) (v : Vector Byte 16) : FrameBut [.regs] s { s with v := v } := by
  intro p hp
  cases p with
  | regs => exact absurd (List.mem_singleton_self _) hp
  | memory => exact fun _ => rfl
  | stack | wait => exact ⟨rfl, rfl⟩
  | index | delayTimer | soundTimer | display | keys | fault | draws => rfl

theorem frameBut_loadRegBlock (s : State) (x : Reg) : FrameBut [.regs] s (s.loadRegBlock x) := frameBut_setRegs s _

theorem sameBytesBut_writeBlock (s : State) (a : Nat) (bs : List Byte) :
    SameBytesBut a bs.length s (s.writeBlock a bs) := fun k hk => by
  rw [State.writeBlock_readByte, dif_neg hk]

/-- An instruction that writes `I` and advances does nothing else. -/
theorem setIndex_advance_only (s : State) (a : Word) :
    (State.advance { s with i := a }).pc = s.pc + 2 ∧ FrameBut [.index] s (State.advance { s with i := a }) :=
  ⟨rfl, (frameBut_setIndex s a).advance⟩

/-- An instruction that stores `n` bytes from `a` up and advances does nothing else. -/
theorem writeBlock_advance_only (s : State) (a : Nat) {bs : List Byte} {n : Nat} (hn : bs.length = n) :
    SameBytesBut a n s (s.writeBlock a bs).advance ∧ (s.writeBlock a bs).advance.pc = s.pc + 2 ∧
      FrameBut [.memory] s (s.writeBlock a bs).advance := by
  subst hn
  exact ⟨sameBytesBut_writeBlock s a bs, rfl, (frameBut_writeBlock s a bs).advance⟩

/-- An instruction that loads `V0` through `VX` and advances does nothing else. -/
theorem loadRegBlock_advance_only (s : State) (x : Reg) :
    (s.loadRegBlock x).advance.pc = s.pc + 2 ∧ FrameBut [.regs] s (s.loadRegBlock x).advance :=
  ⟨by rw [State.advance_pc, State.loadRegBlock_pc], (frameBut_loadRegBlock s x).advance⟩

/-- An access at `I` that runs out of memory commits nothing but the fault it reports (R54; 60_exceptions R215). -/
theorem withRange_raisedOutOfBounds (s t : State) {n : Nat} (hn : n > 0) (h : s.i.toNat + n > 0x1000) :
    ∃ u, s.withRange n t = .next u ∧ RaisedOutOfBounds s.i s u :=
  ⟨_, s.withRange_fault t n hn h, _, reportedAddress_toNat s.i, raised_raise s _⟩

end Sys2Proof.Safety

namespace Sys2Proof.Machine

open Sys2Proof.Safety

/-! ### The operands as numbers -/

/-- The sum wraps at 2^16 and is not reduced to an address (R162). -/
theorem word_add_toWord_toNat (a : Word) (b : Byte) : (a + b.toWord).toNat = (a.toNat + b.toNat) % 65536 := by
  have hb := b.isLt
  rw [BitVec.toNat_add, BitVec.toNat_setWidth]
  omega

/-- Five bytes a glyph from `FONT_BASE = 0` (R164). -/
theorem glyphAddress_toNat (d : Fin 16) : (glyphAddress d).toNat = 5 * d.val := by
  have hd := d.isLt
  simp only [glyphAddress, fontBase, fontStride, BitVec.toNat_ofNat]
  omega

/-- Each decimal digit fits its byte (R166). -/
theorem bcdDigits_toNat (b : Byte) :
    (bcdDigits b)[0].toNat = b.toNat / 100 ∧ (bcdDigits b)[1].toNat = b.toNat / 10 % 10 ∧
      (bcdDigits b)[2].toNat = b.toNat % 10 := by
  have hb := b.isLt
  simp only [bcdDigits, List.getElem_cons_zero, List.getElem_cons_succ, BitVec.toNat_ofNat]
  omega

/-- A stored byte, read back. -/
theorem State.writeBlock_readByte_add (s : State) (a : Nat) {bs : List Byte} {k : Nat} (hk : k < bs.length) :
    (s.writeBlock a bs).readByte (a + k) = bs[k] := by
  rw [State.writeBlock_readByte, dif_pos ⟨Nat.le_add_right a k, Nat.add_lt_add_left hk a⟩]
  simp only [Nat.add_sub_cancel_left]

/-! ### The memory instructions in range -/

section
variable {s : State}

theorem exec_ldBVx_of_inside (x : Reg) (h : s.i.toNat + 2 ≤ 0xFFF) :
    exec (.ldBVx x) s = .next (s.writeBlock s.i.toNat (bcdDigits (s.reg x))).advance :=
  s.withRange_ok _ 3 (.inr (by omega))

theorem exec_ldMemVx_of_inside {x : Reg} (h : s.i.toNat + x.val ≤ 0xFFF) :
    exec (.ldMemVx x) s = .next (s.writeBlock s.i.toNat (s.regBlock x)).advance :=
  s.withRange_ok _ (x.val + 1) (.inr (by omega))

theorem exec_ldVxMem_of_inside {x : Reg} (h : s.i.toNat + x.val ≤ 0xFFF) :
    exec (.ldVxMem x) s = .next (s.loadRegBlock x).advance :=
  s.withRange_ok _ (x.val + 1) (.inr (by omega))

end

/-! ### The statements -/

/-- Settles O40: each is a write of `I` with its operand, read from the old state. -/
theorem indexRegisterWrites : Obligations.IndexRegisterWrites := by
  refine ⟨encodedAs_row 19, encodedAs_row 29, encodedAs_row 30, fun nnn x s => ⟨?_, ?_, ?_⟩⟩
  · exact ⟨_, rfl, addressOf_toNat nnn, setIndex_advance_only s _⟩
  · exact ⟨_, rfl, word_add_toWord_toNat s.i (s.reg x), setIndex_advance_only s _⟩
  · exact ⟨_, rfl, glyphAddress_toNat (lowNibble (s.reg x)), setIndex_advance_only s _⟩

/-- Settles O41: in range the three digits are stored in order from `I` up; out of range the access faults. -/
theorem bcdStore : Obligations.BcdStore := by
  refine ⟨encodedAs_row 31, fun x s h => ?_, fun x s h => ?_⟩
  · obtain ⟨hundreds, tens, ones⟩ := bcdDigits_toNat (s.reg x)
    have hstored : ∀ k (hk : k < (bcdDigits (s.reg x)).length),
        (s.writeBlock s.i.toNat (bcdDigits (s.reg x))).advance.readByte (s.i.toNat + k) = (bcdDigits (s.reg x))[k] :=
      fun k hk => s.writeBlock_readByte_add s.i.toNat hk
    refine ⟨_, exec_ldBVx_of_inside x h, ?_, ?_, ?_, writeBlock_advance_only s _ (bcdDigits_length _)⟩
    · exact (congrArg BitVec.toNat (hstored 0 (by simp))).trans hundreds
    · exact (congrArg BitVec.toNat (hstored 1 (by simp))).trans tens
    · exact (congrArg BitVec.toNat (hstored 2 (by simp))).trans ones
  · exact withRange_raisedOutOfBounds s _ (by decide) (by omega)

/-- Settles O42: in range `V0` through `VX` are stored in order from `I` up; out of range the access faults. -/
theorem registerBlockStore : Obligations.RegisterBlockStore := by
  refine ⟨encodedAs_row 32, fun x s h => ?_, fun x s h => ?_⟩
  · refine ⟨_, exec_ldMemVx_of_inside h, fun k hk => ?_, writeBlock_advance_only s _ (s.regBlock_length x)⟩
    have hlen : k.val < (s.regBlock x).length := by rw [State.regBlock_length]; omega
    rw [State.advance_readByte, s.writeBlock_readByte_add _ hlen, State.regBlock_getElem]
  · exact withRange_raisedOutOfBounds s _ (Nat.succ_pos _) (by omega)

/-- Settles O43: in range the registers up to `VX` take the bytes from `I` up; out of range the access faults. -/
theorem registerBlockLoad : Obligations.RegisterBlockLoad := by
  refine ⟨encodedAs_row 33, fun x s h => ?_, fun x s h => ?_⟩
  · refine ⟨_, exec_ldVxMem_of_inside h, fun k hk => ?_, fun k hk => ?_, loadRegBlock_advance_only s x⟩
    · rw [State.advance_reg, State.loadRegBlock_reg, if_pos hk]
    · rw [State.advance_reg, State.loadRegBlock_reg, if_neg (Nat.not_le_of_lt hk)]
  · exact withRange_raisedOutOfBounds s _ (Nat.succ_pos _) (by omega)

end Sys2Proof.Machine
end

section
/-! SUPPORT. The display (44_display): what a write of the framebuffer and a committed blit leave unchanged, what a draw
makes of each pixel and of `VF` in terms of the sprite's bits (R181, R182), and the statements O45 to O47. -/

namespace Sys2Proof.Safety

open Sys2Proof.Machine

/-! ### Frames of the operations on the framebuffer -/

theorem FrameBut.mono {s t : State} {changed changed' : List Part} (h : FrameBut changed s t)
    (hsub : changed ⊆ changed') : FrameBut changed' s t := fun p hp => h p (mt (@hsub p) hp)

theorem frameBut_setDisplay (s : State) (fb : Framebuffer) : FrameBut [.display] s { s with fb := fb } := by
  intro p hp
  cases p with
  | display => exact absurd (List.mem_singleton_self _) hp
  | regs | memory => exact fun _ => rfl
  | stack | wait => exact ⟨rfl, rfl⟩
  | index | delayTimer | soundTimer | keys | fault | draws => rfl

/-- A committed blit is a write of the framebuffer and then of `VF` (R182). -/
theorem frameBut_commitBlit (s : State) (p : Framebuffer × Bool) :
    FrameBut [.regs, .display] s (s.commitBlit p) :=
  ((frameBut_setDisplay s p.1).mono (List.subset_cons_self _ _)).setReg List.mem_cons_self vf (flagByte p.2)

theorem sameRegsBut_commitBlit (s : State) (p : Framebuffer × Bool) : SameRegsBut [vf] s (s.commitBlit p) :=
  fun r hr => by rw [State.commitBlit_reg, if_neg (List.ne_of_not_mem_cons hr)]

/-- The sprite's bits depend on `I`, memory and the reduced origin only (R181). -/
theorem spriteOn_congr {s t : State} {x y : Reg} (n px py : Nat) (hi : t.i = s.i)
    (hmem : ∀ a, t.readByte a = s.readByte a) (hx : (t.reg x).toNat % 64 = (s.reg x).toNat % 64)
    (hy : (t.reg y).toNat % 32 = (s.reg y).toNat % 32) : spriteOn t x y n px py = spriteOn s x y n px py := by
  simp only [spriteOn, hi, hmem, hx, hy]

end Sys2Proof.Safety

namespace Sys2Proof.Machine

open Sys2Proof.Safety

theorem Framebuffer.pixel_eq_getElem (fb : Framebuffer) (px : Fin 64) (py : Fin 32) :
    Framebuffer.pixel fb px.val py.val = fb[py][px] := dif_pos ⟨px.isLt, py.isLt⟩

/-- Two grids with the same pixels on the screen are the same grid. -/
theorem Framebuffer.ext_getElem {f g : Framebuffer} (h : ∀ (px : Fin 64) (py : Fin 32), f[py][px] = g[py][px]) :
    f = g :=
  Framebuffer.ext_pixel f g fun u v hu hv => by
    rw [Framebuffer.pixel_eq_getElem f ⟨u, hu⟩ ⟨v, hv⟩, Framebuffer.pixel_eq_getElem g ⟨u, hu⟩ ⟨v, hv⟩, h]

theorem flagByte_eq_one_iff (c : Bool) : flagByte c = 1 ↔ c = true := by cases c <;> decide

theorem flagByte_eq_zero_iff (c : Bool) : flagByte c = 0 ↔ c = false := by cases c <;> decide

/-! ### The blit, in terms of the sprite's bits -/

section
variable (s : State) (x y : Reg) (n : Nat)

/-- The byte of the block read at `I` for the sprite's row `k`; there is none past the last row. -/
theorem State.readBlock_getD (a k : Nat) :
    (s.readBlock a n).getD k 0 = if k < n then s.readByte (a + k) else 0 := by
  split
  next hk =>
    have hlen : k < (Memory.readBlock s.mem a n).length := by rwa [Memory.readBlock_length]
    exact (List.getD_eq_getElem _ _ hlen).trans (Memory.readBlock_getElem s.mem a n k hlen)
  next hk => exact List.getD_eq_default _ _ (by rw [State.readBlock, Memory.readBlock_length]; omega)

/-- On the screen the blitter's mask for the block at `I` is the sprite of R181. -/
theorem spriteBit_readBlock (px : Fin 64) (py : Fin 32) :
    spriteBit ((s.reg x).toNat % 64) ((s.reg y).toNat % 32) (s.readBlock s.i.toNat n) px.val py.val =
      spriteOn s x y n px.val py.val := by
  have hpx := px.isLt
  have hpy := py.isLt
  rw [spriteBit, spriteOn, State.readBlock_getD]
  by_cases hrow : py.val - (s.reg y).toNat % 32 < n
  · rw [if_pos hrow]
    congr 1
    exact decide_eq_decide.mpr (by omega)
  · rw [if_neg hrow, BitVec.ofNat_eq_ofNat, BitVec.getLsbD_zero, Bool.and_false]
    exact (Bool.and_eq_false_imp.mpr fun h => by rw [decide_eq_true_eq] at h; omega).symm

/-- A blit XORs the sprite into the screen (R182). -/
theorem State.blit_getElem (px : Fin 64) (py : Fin 32) :
    (s.blit x y n).1[py][px] = (s.fb[py][px] ^^ spriteOn s x y n px.val py.val) := by
  obtain ⟨hpixel, -⟩ := blitRows_blitsBy (s.fb, false) ((s.reg x).toNat % 64) ((s.reg y).toNat % 32)
    (s.readBlock s.i.toNat n)
  rw [← spriteBit_readBlock, ← Framebuffer.pixel_eq_getElem, ← Framebuffer.pixel_eq_getElem]
  exact hpixel px.val py.val

/-- A blit collides exactly when a pixel of the screen was on where the sprite has a 1 bit (R182). -/
theorem State.blit_collides_iff :
    (s.blit x y n).2 = true ↔
      ∃ (px : Fin 64) (py : Fin 32), spriteOn s x y n px.val py.val = true ∧ s.fb[py][px] = true := by
  obtain ⟨-, hcollides⟩ := blitRows_blitsBy (s.fb, false) ((s.reg x).toNat % 64) ((s.reg y).toNat % 32)
    (s.readBlock s.i.toNat n)
  rw [State.blit, hcollides]
  simp only [Bool.false_eq_true, false_or]
  constructor
  · rintro ⟨u, v, hbit, hlit⟩
    have hscreen : u < 64 ∧ v < 32 := by
      rw [spriteBit, Bool.and_eq_true, decide_eq_true_eq] at hbit
      exact ⟨hbit.1.1, hbit.1.2.1⟩
    refine ⟨⟨u, hscreen.1⟩, ⟨v, hscreen.2⟩, ?_, ?_⟩
    · rw [← spriteBit_readBlock]; exact hbit
    · rw [← Framebuffer.pixel_eq_getElem]; exact hlit
  · rintro ⟨px, py, hbit, hlit⟩
    rw [← spriteBit_readBlock] at hbit
    rw [← Framebuffer.pixel_eq_getElem] at hlit
    exact ⟨px, py, hbit, hlit⟩

/-! ### The state after a draw in range -/

/-- The state that `DRW VX,VY,N` answers when its range check passes (R182). -/
def State.drawn : State := (s.commitBlit (s.blit x y n)).advance

variable {s} in
theorem exec_drwVxVyN_of_inside (h : n = 0 ∨ s.i.toNat + n - 1 ≤ 0xFFF) :
    exec (.drwVxVyN x y n) s = .next (s.drawn x y n) :=
  s.withRange_ok _ n (by omega)

theorem State.drawn_i : (s.drawn x y n).i = s.i := rfl

theorem State.drawn_readByte (a : Nat) : (s.drawn x y n).readByte a = s.readByte a := rfl

theorem State.drawn_fb (px : Fin 64) (py : Fin 32) :
    (s.drawn x y n).fb[py][px] = (s.fb[py][px] ^^ spriteOn s x y n px.val py.val) := s.blit_getElem x y n px py

theorem State.drawn_reg_vf : (s.drawn x y n).reg vf = flagByte (s.blit x y n).2 := by
  rw [State.drawn, State.advance_reg, State.commitBlit_reg, if_pos rfl]

theorem State.drawn_reg_vf_eq_one_iff :
    (s.drawn x y n).reg vf = 1 ↔
      ∃ (px : Fin 64) (py : Fin 32), spriteOn s x y n px.val py.val = true ∧ s.fb[py][px] = true := by
  rw [State.drawn_reg_vf, flagByte_eq_one_iff, State.blit_collides_iff]

theorem State.drawn_reg_vf_eq_zero_iff :
    (s.drawn x y n).reg vf = 0 ↔
      ∀ (px : Fin 64) (py : Fin 32), spriteOn s x y n px.val py.val = true → s.fb[py][px] = false := by
  rw [State.drawn_reg_vf, flagByte_eq_zero_iff, ← Bool.not_eq_true, State.blit_collides_iff]
  simp only [not_exists, not_and, Bool.not_eq_true]

/-- A draw in range moves to the next word, writes no register but `VF`, and touches nothing else but the screen. -/
theorem State.drawn_only :
    (s.drawn x y n).pc = s.pc + 2 ∧ SameRegsBut [vf] s (s.drawn x y n) ∧
      FrameBut [.regs, .display] s (s.drawn x y n) :=
  ⟨rfl, sameRegsBut_commitBlit s _, (frameBut_commitBlit s _).advance⟩

/-! ### The same sprite drawn twice (R183) -/

/-- A draw turns a pixel on exactly where the sprite has a 1 bit and leaves the pixel lit. -/
theorem State.drawn_turnsOn_iff (px : Fin 64) (py : Fin 32) :
    s.fb[py][px] = false ∧ (s.drawn x y n).fb[py][px] = true ↔
      spriteOn s x y n px.val py.val = true ∧ (s.drawn x y n).fb[py][px] = true := by
  rw [State.drawn_fb]
  cases s.fb[py][px] <;> simp

section
variable {s x y n} (hsprite : ∀ px py, spriteOn (s.drawn x y n) x y n px py = spriteOn s x y n px py)
include hsprite

theorem State.drawn_drawn_fb : ((s.drawn x y n).drawn x y n).fb = s.fb :=
  Framebuffer.ext_getElem fun px py => by
    rw [State.drawn_fb, hsprite, State.drawn_fb, Bool.xor_assoc, Bool.xor_self, Bool.xor_false]

/-- The second draw meets a lit pixel exactly where the first left one lit under a 1 bit of the sprite. -/
theorem State.drawn_drawn_reg_vf_eq_one_iff :
    ((s.drawn x y n).drawn x y n).reg vf = 1 ↔
      ∃ (px : Fin 64) (py : Fin 32),
        spriteOn s x y n px.val py.val = true ∧ (s.drawn x y n).fb[py][px] = true := by
  simp only [State.drawn_reg_vf_eq_one_iff (s.drawn x y n), hsprite]

/-- Over a blank region the first draw leaves every pixel under a 1 bit of the sprite lit. -/
theorem State.drawn_drawn_reg_vf_eq_one_iff_of_blank
    (hblank : ∀ (px : Fin 64) (py : Fin 32), spriteOn s x y n px.val py.val = true → s.fb[py][px] = false) :
    ((s.drawn x y n).drawn x y n).reg vf = 1 ↔
      ∃ (px : Fin 64) (py : Fin 32), spriteOn s x y n px.val py.val = true := by
  rw [State.drawn_drawn_reg_vf_eq_one_iff hsprite]
  refine exists_congr fun px => exists_congr fun py => and_iff_left_of_imp fun hbit => ?_
  rw [State.drawn_fb, hblank px py hbit, hbit, Bool.false_xor]

end

end

/-! ### The statements -/

/-- Settles O45: the blank grid replaces the screen, and nothing else is written. -/
theorem clsClearsTheScreen : Obligations.ClsClearsTheScreen := by
  refine ⟨encodedAs_row 0, fun s => ⟨_, rfl, fun px py => ?_, rfl, (frameBut_setDisplay s _).advance⟩⟩
  exact (Framebuffer.pixel_eq_getElem _ px py).symm.trans (Framebuffer.pixel_blank px py)

/-- Settles O46: in range the answer is the drawn state, whose pixels and flag are read off the sprite's bits; out of
range the access faults. -/
theorem drwXorsTheSprite : Obligations.DrwXorsTheSprite := by
  refine ⟨encodedAs_row 22, fun x y n s h => ?_, fun x y n s hn h => ?_⟩
  · exact ⟨_, exec_drwVxVyN_of_inside x y n h, s.drawn_fb x y n, (s.drawn_reg_vf_eq_one_iff x y n).mpr,
      (s.drawn_reg_vf_eq_zero_iff x y n).mpr, s.drawn_only x y n⟩
  · exact withRange_raisedOutOfBounds s _ hn (by omega)

/-- Settles O47: the second draw has the first's sprite, so it XORs the same bits into the screen again, and it meets a
lit pixel exactly where the first turned one on. -/
theorem drawingTwiceRestoresTheScreen : Obligations.DrawingTwiceRestoresTheScreen := by
  intro x y n s t h ht hx hy
  obtain rfl : s.drawn x y n = t := Host.Outcome.next.inj ((exec_drwVxVyN_of_inside x y n h).symm.trans ht)
  have hsprite : ∀ px py, spriteOn (s.drawn x y n) x y n px py = spriteOn s x y n px py := fun px py =>
    spriteOn_congr n px py (s.drawn_i x y n) (s.drawn_readByte x y n) hx hy
  refine ⟨_, exec_drwVxVyN_of_inside x y n h, State.drawn_drawn_fb hsprite, ?_, ?_, fun hblank => ?_⟩
  · rw [State.drawn_reg_vf]
    exact flagByte_cases _
  · simp only [State.drawn_turnsOn_iff]
    exact State.drawn_drawn_reg_vf_eq_one_iff hsprite
  · exact ⟨(s.drawn_reg_vf_eq_zero_iff x y n).mpr hblank,
      State.drawn_drawn_reg_vf_eq_one_iff_of_blank hsprite hblank⟩

end Sys2Proof.Machine
end

section
/-! SUPPORT. The keypad (45_keypad): what the key skips read, that no instruction writes `K` (R34), what a started and a
completed wait leave unchanged (R194, R196), and the statements O48 to O50. -/

namespace Sys2Proof.Machine

open Sys2Proof.Safety

section
variable {s t : State}

/-! ### Who keeps `K` -/

theorem withRange_keys {u : State} {n : Nat} (hu : u.keys = s.keys) (h : s.withRange n u = .next t) :
    t.keys = s.keys := by
  obtain ⟨-, rfl⟩ | ⟨-, -, rfl⟩ := State.withRange_cases s u t n h
  · exact hu
  · rfl

theorem execRet_keys (h : exec .ret s = .next t) : t.keys = s.keys := by
  obtain h0 | hpos := Nat.eq_zero_or_pos s.sp.val
  · cases (exec_ret_of_sp_zero h0).symm.trans h
    rfl
  · have hj : s.sp.val = (⟨s.sp.val - 1, by omega⟩ : Fin 16).val + 1 := (Nat.sub_add_cancel hpos).symm
    cases (exec_ret_of_sp_eq hj).symm.trans h
    rfl

theorem execCallNnn_keys {nnn : BitVec 12} (h : exec (.callNnn nnn) s = .next t) : t.keys = s.keys := by
  obtain h16 | hlt := Nat.eq_or_lt_of_le (Nat.le_of_lt_succ s.sp.isLt)
  · cases (exec_callNnn_of_sp_full nnn h16).symm.trans h
    rfl
  · cases (exec_callNnn_of_sp_eq nnn (j := ⟨s.sp.val, hlt⟩) rfl).symm.trans h
    rfl

/-- No instruction writes the keypad (10_state R34): the host alone does. -/
theorem exec_keys {i : Instr} (h : exec i s = .next t) : t.keys = s.keys := by
  cases i with
  | ret => exact execRet_keys h
  | callNnn nnn => exact execCallNnn_keys h
  | seVxNn | sneVxNn | seVxVy | sneVxVy | skpVx | sknpVx => cases h; exact s.skipIf_keys _
  | ldBVx x | ldMemVx x | ldVxMem x | drwVxVyN x y n => exact withRange_keys (by rfl) h
  | _ => cases h; rfl

theorem step_keys (h : step s = .next t) : t.keys = s.keys := by
  obtain ⟨-, rfl⟩ | ⟨-, -, rfl⟩ | ⟨-, -, -, rfl⟩ | ⟨-, -, i, -, hexec⟩ := step_cases s t h
  · rfl
  · rfl
  · rfl
  · exact exec_keys hexec

@[simp] theorem load_keys (image : List Byte) : (load image s).2.keys = s.keys := by
  unfold load; split <;> rfl

/-- Keys that read released do so until a `SetKeys` (R192). -/
theorem applyOp_keys_released {o : Op} (ho : ∀ k, o ≠ .setKeys k) (hs : ∀ j : Fin 16, s.keys[j] = false)
    (h : applyOp o s = .next t) (j : Fin 16) : t.keys[j] = false := by
  have hkept : t.keys = s.keys → t.keys[j] = false := fun hk => by rw [hk]; exact hs j
  cases o with
  | reset => cases h; exact resetMachine_keys s j
  | load image => cases h; exact hkept (load_keys image)
  | setKeys k => exact absurd rfl (ho k)
  | keyDeliver k => cases h; exact hkept (keyDeliver_keys s k)
  | step => exact hkept (step_keys h)
  | tickTimers => cases h; exact hkept rfl

/-! ### The key skips -/

theorem State.skipIf_keyDown_pc (k : Fin 16) :
    (s.skipIf (s.keyDown k)).pc = if s.keys[k] = true then s.pc + 4 else s.pc + 2 := by
  rw [State.skipIf_pc, State.keyDown, add_two_add_two]

theorem State.skipIf_not_keyDown_pc (k : Fin 16) :
    (s.skipIf (!s.keyDown k)).pc = if s.keys[k] = true then s.pc + 2 else s.pc + 4 := by
  simp only [State.skipIf_pc, State.keyDown, Bool.not_eq_true', ← Bool.not_eq_true, ite_not, add_two_add_two]

/-- With all keys released `SKNP` always skips (R192). -/
theorem exec_sknpVx_of_released (x : Reg) (hs : ∀ j : Fin 16, s.keys[j] = false) :
    ∃ t, exec (.sknpVx x) s = .next t ∧ t.pc = s.pc + 4 ∧ FrameBut [] s t := by
  refine ⟨_, rfl, ?_, frameBut_skipIf s _⟩
  rw [State.skipIf_not_keyDown_pc, hs, if_neg Bool.false_ne_true]

/-! ### The wait -/

theorem frameBut_setWait (s : State) (w : Bool) (x : Reg) :
    FrameBut [.wait] s { s with awaiting := w, kx := x } := by
  intro p hp
  cases p with
  | wait => exact absurd (List.mem_singleton_self _) hp
  | regs | memory => exact fun _ => rfl
  | stack => exact ⟨rfl, rfl⟩
  | index | delayTimer | soundTimer | display | keys | fault | draws => rfl

/-- The delivered key number is in the awaited register (R196). -/
theorem keyDeliver_reg_kx (k : BitVec 4) (hw : s.awaiting = true) :
    ((keyDeliver k s).reg s.kx).toNat = k.toNat := by
  rw [keyDeliver_reg s k s.kx hw, if_pos rfl]
  exact BitVec.toNat_setWidth_of_le (by decide)

theorem sameRegsBut_keyDeliver (k : BitVec 4) (hw : s.awaiting = true) :
    SameRegsBut [s.kx] s (keyDeliver k s) := fun r hr => by
  rw [keyDeliver_reg s k r hw, if_neg (List.ne_of_not_mem_cons hr)]

/-- A delivery that completes a wait clears the latch and then writes the register (R196). -/
theorem frameBut_keyDeliver (k : BitVec 4) (hw : s.awaiting = true) :
    FrameBut [.regs, .wait] s (keyDeliver k s) := by
  rw [keyDeliver, if_pos hw]
  exact ((frameBut_setWait s false s.kx).mono (List.subset_cons_self _ _)).setReg List.mem_cons_self s.kx _

/-- Only `Reset` and `KeyDeliver` end a wait (10_state R35, R196). -/
theorem applyOp_ends_wait {o : Op} (h : applyOp o s = .next t) (hw : s.awaiting = true) (hdone : t.awaiting = false) :
    o = .reset ∨ ∃ k, o = .keyDeliver k := by
  by_contra! ⟨hreset, hdeliver⟩
  have hwaits : t.awaiting = true := applyOp_awaiting_of_waiting hw hreset hdeliver h
  exact Bool.false_ne_true (hdone.symm.trans hwaits)

end

/-! ### The statements -/

/-- Settles O48: each key skip is `skipIf` of the tested key, and the keys read released until a `SetKeys`. -/
theorem keySkips : Obligations.KeySkips := by
  refine ⟨encodedAs_row 23, encodedAs_row 24, fun x s k hk => ?_, fun x => ?_, resetMachine_keys State.reset,
    resetMachine_keys, fun _ _ _ => applyOp_keys_released, fun x _ => exec_sknpVx_of_released x⟩
  · obtain rfl : k = lowNibble (s.reg x) := Fin.ext hk
    exact ⟨⟨_, rfl, State.skipIf_keyDown_pc _, frameBut_skipIf s _⟩,
      ⟨_, rfl, State.skipIf_not_keyDown_pc _, frameBut_skipIf s _⟩⟩
  · obtain ⟨t, hexec, hpc, -⟩ := exec_sknpVx_of_released x (resetMachine_keys State.reset)
    exact ⟨t, hexec, hpc⟩

/-- Settles O49: the answer is the waiting state, which no step moves and whose register `KX` takes the key. -/
theorem keyWaitStartsAndCompletes : Obligations.KeyWaitStartsAndCompletes :=
  ⟨encodedAs_row 26, fun x s => ⟨_, rfl, rfl, rfl, rfl, (frameBut_setWait s true x).advance,
    step_of_awaiting rfl, fun hf => stepReport_of_awaiting hf rfl, countDown_toNat s.dt, countDown_toNat s.st,
    fun k => ⟨keyDeliver_reg_kx k rfl, keyDeliver_awaiting _ k, keyDeliver_pc _ k⟩⟩⟩

/-- Settles O50: a delivery writes the awaited register and clears the latch, and a wait outlives every operation but
`Reset` and `KeyDeliver`. -/
theorem keyDeliverCompletesTheWait : Obligations.KeyDeliverCompletesTheWait :=
  ⟨fun k s hw => ⟨keyDeliver_reg_kx k hw, sameRegsBut_keyDeliver k hw, keyDeliver_awaiting s k, keyDeliver_kx s k,
    keyDeliver_pc s k, frameBut_keyDeliver k hw⟩,
    fun k s => keyDeliver_idle s k,
    fun _ _ _ => applyOp_ends_wait⟩

end Sys2Proof.Machine
end

section
/-! SUPPORT. The timers (46_timers): what a write of `DT` or `ST` leaves unchanged, `sound_on` as a test of `ST`
(10_state R31), and the statements O51 and O52. -/

namespace Sys2Proof.Safety

open Sys2Proof.Machine

/-! ### Frames of the timer writes -/

section
variable {s t : State} {changed : List Part}

/-- A write of `DT` adds nothing to a frame that lists `DT` as changed. -/
theorem FrameBut.setDelayTimer (h : FrameBut changed s t) (hdt : .delayTimer ∈ changed) (b : Byte) :
    FrameBut changed s { t with dt := b } := by
  intro p hp
  cases p with
  | delayTimer => exact absurd hdt hp
  | regs | index | stack | soundTimer | memory | display | keys | wait | fault | draws => exact h _ hp

/-- A write of `ST` adds nothing to a frame that lists `ST` as changed. -/
theorem FrameBut.setSoundTimer (h : FrameBut changed s t) (hst : .soundTimer ∈ changed) (b : Byte) :
    FrameBut changed s { t with st := b } := by
  intro p hp
  cases p with
  | soundTimer => exact absurd hst hp
  | regs | index | stack | delayTimer | memory | display | keys | wait | fault | draws => exact h _ hp

end

/-- A tick is a write of `DT` and a write of `ST` (46_timers R203). -/
theorem frameBut_tickTimers (s : State) : FrameBut [.delayTimer, .soundTimer] s (tickTimers s) :=
  ((FrameBut.refl _ s).setDelayTimer List.mem_cons_self (countDown s.dt)).setSoundTimer
    (List.mem_cons_of_mem _ List.mem_cons_self) (countDown s.st)

end Sys2Proof.Safety

namespace Sys2Proof.Machine

open Sys2Proof.Safety

theorem State.soundOn_iff (s : State) : s.soundOn = true ↔ s.st ≠ 0 := bne_iff_ne

/-! ### What the two writes answer -/

/-- `LD DT,VX` (R201). -/
theorem exec_ldDtVx_only (x : Reg) (s : State) :
    ∃ t, exec (.ldDtVx x) s = .next t ∧ t.dt = s.reg x ∧ t.pc = s.pc + 2 ∧ FrameBut [.delayTimer] s t :=
  ⟨_, rfl, rfl, rfl, ((FrameBut.refl _ s).setDelayTimer List.mem_cons_self (s.reg x)).advance⟩

/-- `LD ST,VX` (R202): `sound_on` reads the new `ST`, so it follows `V[X]` at once. -/
theorem exec_ldStVx_only (x : Reg) (s : State) :
    ∃ t, exec (.ldStVx x) s = .next t ∧ t.st = s.reg x ∧ (t.soundOn = true ↔ s.reg x ≠ 0) ∧ t.pc = s.pc + 2 ∧
      FrameBut [.soundTimer] s t :=
  ⟨_, rfl, rfl, State.soundOn_iff _, rfl,
    ((FrameBut.refl _ s).setSoundTimer List.mem_cons_self (s.reg x)).advance⟩

/-! ### The statements -/

/-- Settles O51: rows 28 and 29 of the opcode table, and each write with its frame. -/
theorem timerWrites : Obligations.TimerWrites :=
  ⟨encodedAs_row 27, encodedAs_row 28, fun x s => ⟨exec_ldDtVx_only x s, exec_ldStVx_only x s⟩⟩

/-- Settles O52: each timer is counted down on its own, and a tick writes the two timers only. -/
theorem tickCountsBothTimersDown : Obligations.TickCountsBothTimersDown := fun s =>
  ⟨countDown_toNat s.dt, countDown_toNat s.st, tickTimers_pc s, frameBut_tickTimers s⟩

end Sys2Proof.Machine
end

section
/-! SUPPORT. Exceptions (60_exceptions): a step that latches a fault has raised it (R215), what that step reports (R230),
and the statements O13 and O12. -/

namespace Sys2Proof.Machine

open Sys2Proof.Safety

section
variable {s t : State} {f : Fault}

/-- A state that holds the fault `f` and was reached by raising some fault was reached by raising `f`. -/
theorem State.eq_raise_of_fault {g : Fault} (ht : t = s.raise g) (hf : t.fault = some f) : t = s.raise f := by
  subst ht
  obtain rfl : g = f := Option.some.inj hf
  rfl

/-- An execution that latches a fault where there was none has raised it and committed nothing (R215). -/
theorem ExecEffect.eq_raise (h : ExecEffect s t) (hs : s.fault = none) (hf : t.fault = some f) : t = s.raise f := by
  obtain hkept | ⟨ht, -⟩ | ⟨ht, -⟩ | ⟨_, ht, -⟩ := h.fault
  · exact absurd (hf.symm.trans (hkept.trans hs)) (Option.some_ne_none f)
  all_goals exact State.eq_raise_of_fault ht hf

/-- A step that latches a fault where there was none was the step of a running core, and has raised that fault: in the
fetch, in the decoder or in the execution (R215). -/
theorem step_eq_raise (h : step s = .next t) (hs : s.fault = none) (hf : t.fault = some f) :
    s.running = true ∧ t = s.raise f := by
  obtain ⟨-, rfl⟩ | ⟨hr, -, ht⟩ | ⟨hr, -, -, ht⟩ | ⟨hr, -, i, -, hexec⟩ := step_cases s t h
  · exact absurd (hf.symm.trans hs) (Option.some_ne_none f)
  · exact ⟨hr, State.eq_raise_of_fault ht hf⟩
  · exact ⟨hr, State.eq_raise_of_fault ht hf⟩
  · exact ⟨hr, (exec_effect i s t hexec).eq_raise hs hf⟩

/-- The step of a running core reports the fault it raises (R215 (d), R230). -/
theorem stepReport_raise (hr : s.running = true) : stepReport s (s.raise f) = .fault f := by
  obtain ⟨hs, hw⟩ := s.running_iff.mp hr
  simp [stepReport, hs, hw]

/-- A word that reads as the two bytes at `a`, high byte first, is the word fetched from `a` (20_memory R53). -/
theorem readWord_eq_of_toNat {w : Word} {a : Nat}
    (hw : w.toNat = (s.readByte a).toNat * 256 + (s.readByte (a + 1)).toNat) : Memory.readWord s.mem a = w := by
  rw [readWord_eq_readByte, ← hw, BitVec.ofNat_toNat, BitVec.setWidth_eq]

end

/-- Settles O13: whichever phase faults, the step has raised the fault, and raising writes the latch alone. -/
theorem faultingStepLeavesOnlyTheLatch : Obligations.FaultingStepLeavesOnlyTheLatch := by
  intro s t f h hs hf
  obtain ⟨hr, rfl⟩ := step_eq_raise h hs hf
  exact ⟨rfl, stepReport_raise hr⟩

/-- Settles O12: a word that no row selects does not decode, so its step raises `UnknownOpcode` with it. -/
theorem unmatchedWordRaisesUnknownOpcode : Obligations.UnmatchedWordRaisesUnknownOpcode := by
  intro s w hfetch hw hnone
  obtain rfl := readWord_eq_of_toNat hw
  exact ⟨_, step_undecoded hfetch (decode_of_no_row hnone), raised_raise s _⟩

end Sys2Proof.Machine
end

section
/-! SUPPORT. The host's `Load` (70_reset_and_hazards R256, R257): the statement O53. -/

namespace Sys2Proof.Machine

open Sys2Proof.Safety

/-- Settles O53: an image that fits is one block write at 0x200, so its bytes read back, every other byte and every other
part of the state is kept; an image that does not fit leaves the state itself. -/
theorem loadCopiesOrRejects : Obligations.LoadCopiesOrRejects := by
  refine ⟨fun image s hfits => ?_, fun image s hlong => load_tooLarge s image hlong⟩
  rw [load_fits s image hfits]
  exact ⟨rfl, fun _ hj => s.writeBlock_readByte_add 0x200 hj, sameBytesBut_writeBlock s 0x200 image, rfl,
    frameBut_writeBlock s 0x200 image⟩

end Sys2Proof.Machine
end

section
/-! SUPPORT. The encoding (30_encoding) from the encoder's side: a word built from operands gives them back (R71), two rows
of the opcode table never select one word (R75), which words of each family do not decode (R78), and the statements O1,
O3, O4, O7 and O8. -/

namespace Sys2Proof

open Laws

/-! ## Decoding what was encoded

The encoder adds the operands to the constant bits `k` of the row. For each format, reading the format's fields from that
sum and giving them to an instruction's constructor `f` gives the instruction back. -/

section
variable {α : Type} {k : Nat} {x y : Reg} {nn : Byte} {nnn : BitVec 12}

theorem operands_nnn (f : BitVec 12 → α) (hk : k % 4096 = 0) :
    f (fieldNNN (BitVec.ofNat 16 (k + nnn.toNat))) = f nnn := by
  rw [fieldNNN_ofNat _ nnn.toNat (by omega), BitVec.ofNat_toNat, BitVec.setWidth_eq]

theorem operands_x_nn (f : Reg → Byte → α) (hk : k % 4096 = 0) :
    f (fieldX (BitVec.ofNat 16 (k + 0x100 * x.val + nn.toNat)))
      (fieldNN (BitVec.ofNat 16 (k + 0x100 * x.val + nn.toNat))) = f x nn := by
  rw [fieldX_ofNat _ x (by omega), fieldNN_ofNat _ nn.toNat (by omega), BitVec.ofNat_toNat, BitVec.setWidth_eq]

theorem operands_x_y (f : Reg → Reg → α) (hk : k % 4096 < 16) :
    f (fieldX (BitVec.ofNat 16 (k + 0x100 * x.val + 0x10 * y.val)))
      (fieldY (BitVec.ofNat 16 (k + 0x100 * x.val + 0x10 * y.val))) = f x y := by
  rw [fieldX_ofNat _ x (by omega), fieldY_ofNat _ y (by omega)]

theorem operands_x (f : Reg → α) (hk : k % 4096 < 256) : f (fieldX (BitVec.ofNat 16 (k + 0x100 * x.val))) = f x := by
  rw [fieldX_ofNat _ x (by omega)]

/-! The trailing bits that a family looks at are those of `k`. -/

theorem fieldN_x_y : fieldN (BitVec.ofNat 16 (k + 0x100 * x.val + 0x10 * y.val)) = BitVec.ofNat 4 (k % 16) :=
  fieldN_ofNat _ _ (by omega)

theorem fieldN_x : fieldN (BitVec.ofNat 16 (k + 0x100 * x.val)) = BitVec.ofNat 4 (k % 16) :=
  fieldN_ofNat _ _ (by omega)

theorem fieldNN_x : fieldNN (BitVec.ofNat 16 (k + 0x100 * x.val)) = BitVec.ofNat 8 (k % 256) :=
  fieldNN_ofNat _ _ (by omega)

end

/-- The encoder puts every well-formed instruction into the family of its row (R76). -/
theorem fieldOp_encode {i : Instr} (h : WellFormed i = true) : fieldOp (encode i) = primaryNibble i := by
  cases i
  exacts [PrimaryNibble.cls h, PrimaryNibble.ret h, PrimaryNibble.jpNnn _ h, PrimaryNibble.callNnn _ h,
    PrimaryNibble.seVxNn _ _ h, PrimaryNibble.sneVxNn _ _ h, PrimaryNibble.seVxVy _ _ h, PrimaryNibble.ldVxNn _ _ h,
    PrimaryNibble.addVxNn _ _ h, PrimaryNibble.ldVxVy _ _ h, PrimaryNibble.orVxVy _ _ h, PrimaryNibble.andVxVy _ _ h,
    PrimaryNibble.xorVxVy _ _ h, PrimaryNibble.addVxVy _ _ h, PrimaryNibble.subVxVy _ _ h, PrimaryNibble.shrVx _ h,
    PrimaryNibble.subnVxVy _ _ h, PrimaryNibble.shlVx _ h, PrimaryNibble.sneVxVy _ _ h, PrimaryNibble.ldINnn _ h,
    PrimaryNibble.jpV0Nnn _ h, PrimaryNibble.rndVxNn _ _ h, PrimaryNibble.drwVxVyN _ _ _ h, PrimaryNibble.skpVx _ h,
    PrimaryNibble.sknpVx _ h, PrimaryNibble.ldVxDt _ h, PrimaryNibble.ldVxK _ h, PrimaryNibble.ldDtVx _ h,
    PrimaryNibble.ldStVx _ h, PrimaryNibble.addIVx _ h, PrimaryNibble.ldFVx _ h, PrimaryNibble.ldBVx _ h,
    PrimaryNibble.ldMemVx _ h, PrimaryNibble.ldVxMem _ h]

/-- The primary nibble selects the family, the constant trailing bits select the row in it, and the row's format gives the
operands back. The cases stand together by format. -/
theorem decode_encode {i : Instr} (h : WellFormed i = true) : decode (encode i) = .ok i := by
  have hop := fieldOp_encode h
  cases i with
  | cls | ret => rfl
  | jpNnn nnn | callNnn nnn | ldINnn nnn | jpV0Nnn nnn =>
    rw [decode, hop]
    exact congrArg Except.ok (operands_nnn _ (by decide))
  | seVxNn x nn | sneVxNn x nn | ldVxNn x nn | addVxNn x nn | rndVxNn x nn =>
    rw [decode, hop]
    exact congrArg Except.ok (operands_x_nn _ (by decide))
  | seVxVy x y | sneVxVy x y =>
    rw [decode, hop]
    exact (if_pos fieldN_x_y).trans (congrArg Except.ok (operands_x_y _ (by decide)))
  | ldVxVy x y | orVxVy x y | andVxVy x y | xorVxVy x y | addVxVy x y | subVxVy x y | subnVxVy x y =>
    rw [decode_eq_decodeFamily8 hop, decodeFamily8, encode, fieldN_x_y]
    exact congrArg Except.ok (operands_x_y _ (by decide))
  | shrVx x | shlVx x =>
    rw [decode_eq_decodeFamily8 hop, decodeFamily8, encode, fieldN_x]
    exact congrArg Except.ok (operands_x _ (by decide))
  | drwVxVyN x y n =>
    have hn : n ≤ 15 := of_decide_eq_true h
    rw [decode, hop]
    refine congrArg Except.ok ?_
    rw [encode, fieldX_ofNat _ x (by omega), fieldY_ofNat _ y (by omega), fieldN_ofNat _ n (by omega),
      BitVec.toNat_ofNat, Nat.mod_eq_of_lt (by omega)]
  | skpVx x | sknpVx x =>
    rw [decode_eq_decodeFamilyE hop, decodeFamilyE, encode, fieldNN_x]
    exact congrArg Except.ok (operands_x _ (by decide))
  | ldVxDt x | ldVxK x | ldDtVx x | ldStVx x | addIVx x | ldFVx x | ldBVx x | ldMemVx x | ldVxMem x =>
    rw [decode_eq_decodeFamilyF hop, decodeFamilyF, encode, fieldNN_x]
    exact congrArg Except.ok (operands_x _ (by decide))

section
variable {w : Word} {r q : OpcodeRow}

/-- The words of `JP NNN` (R76, row 3): `1NNN`. -/
theorem decode_eq_jpNnn_iff {nnn : BitVec 12} : decode w = .ok (.jpNnn nnn) ↔ w.toNat = 0x1000 + nnn.toNat := by
  have hencode : (encode (.jpNnn nnn)).toNat = 0x1000 + nnn.toNat := by
    rw [encode, BitVec.toNat_ofNat]
    omega
  rw [← hencode, BitVec.toNat_inj]
  constructor
  · exact fun h => (encode_of_decode h (fun _ => Instr.noConfusion) fun _ => Instr.noConfusion).symm
  · rintro rfl
    exact decode_encode rfl

/-! ## Rows of the opcode table -/

/-- The patterns of two rows that select one word agree on the bits that both masks fix. -/
theorem OpcodeRow.pattern_and_mask_comm (hr : r.selects w = true) (hq : q.selects w = true) :
    r.pattern &&& q.mask = q.pattern &&& r.mask := by
  rw [OpcodeRow.selects_iff] at hr hq
  rw [← hr, ← hq, BitVec.and_assoc, BitVec.and_assoc, BitVec.and_comm r.mask]

theorem opcodeTable_patterns_differ :
    opcodeTable.Pairwise fun r q => r.pattern &&& q.mask ≠ q.pattern &&& r.mask := by
  decide

/-- Only `DRW` has an operand that its type does not bound, and its row reads it from a nibble (R71). -/
theorem wellFormed_operands (hr : r ∈ opcodeTable) : WellFormed (r.operands w) = true := by
  rcases mem_opcodeTable_iff.mp hr with hr | hr | hr | hr
  · unfold opcodeRows1To9 at hr; fin_cases hr <;> rfl
  · unfold opcodeRows10To18 at hr; fin_cases hr <;> rfl
  · unfold opcodeRows19To25 at hr
    fin_cases hr
    on_goal 5 => exact decide_eq_true (Nat.le_of_lt_succ (fieldN w).isLt)
    all_goals rfl
  · unfold opcodeRows26To34 at hr; fin_cases hr <;> rfl

/-! ## The words of a family that do not decode (R78)

In each branch of a family's decoder the trailing bits are known; in the last one they are none of those listed. -/

theorem decodeFamily0_eq_error_iff :
    decodeFamily0 w = .error (.unknownOpcode w) ↔ w.toNat ≠ 0x00E0 ∧ w.toNat ≠ 0x00EE := by
  unfold decodeFamily0
  split
  · simp
  · simp
  · simp_all [← BitVec.toNat_inj]

theorem decodeFamily8_eq_error_iff :
    decodeFamily8 w = .error (.unknownOpcode w) ↔ w.toNat % 16 ∈ [8, 9, 0xA, 0xB, 0xC, 0xD, 0xF] := by
  rw [← fieldN_toNat]
  unfold decodeFamily8
  split
  case h_10 =>
    refine iff_of_true rfl ?_
    generalize fieldN w = n at *
    revert n
    decide
  all_goals
    rename_i hn
    simp [hn]

theorem decodeFamilyE_eq_error_iff :
    decodeFamilyE w = .error (.unknownOpcode w) ↔ w.toNat % 256 ≠ 0x9E ∧ w.toNat % 256 ≠ 0xA1 := by
  rw [← fieldNN_toNat]
  unfold decodeFamilyE
  split
  case h_3 => simp_all [← BitVec.toNat_inj]
  all_goals
    rename_i hnn
    simp [hnn]

theorem decodeFamilyF_eq_error_iff : decodeFamilyF w = .error (.unknownOpcode w) ↔
    w.toNat % 256 ∉ [0x07, 0x0A, 0x15, 0x18, 0x1E, 0x29, 0x33, 0x55, 0x65] := by
  rw [← fieldNN_toNat]
  unfold decodeFamilyF
  split
  case h_10 => simp_all [← BitVec.toNat_inj]
  all_goals
    rename_i hnn
    simp [hnn]

end

/-! ## The statements -/

/-- Settles O1: every operand lies in its field of the word, and the decoder reads the same field. -/
theorem decodeOfEncodeIsIdentity : Obligations.DecodeOfEncodeIsIdentity := fun _ => decode_encode

/-- Settles O3: any two rows of the table differ in a bit that both fix, so no word matches both. -/
theorem opcodeRowsAreDisjoint : Obligations.OpcodeRowsAreDisjoint :=
  ⟨rfl, fun _ => opcodeTable_patterns_differ.imp fun hne ⟨hr, hq⟩ => hne (OpcodeRow.pattern_and_mask_comm hr hq)⟩

/-- Settles O4: the primary nibble selects the family; four families and the `N` of two more look at their trailing bits,
and every word of the other families decodes. -/
theorem illegalWordsByFamily : Obligations.IllegalWordsByFamily := by
  refine fun w => ⟨?_, decode_error w⟩
  rw [← fieldOp_toNat]
  unfold decode
  split
  case h_1 hop => rw [decodeFamily0_eq_error_iff]; simp [hop]
  case h_6 hop => rw [← fieldN_toNat]; simp [hop, ← BitVec.toNat_inj]
  case h_9 hop => rw [decodeFamily8_eq_error_iff]; simp [hop]
  case h_10 hop => rw [← fieldN_toNat]; simp [hop, ← BitVec.toNat_inj]
  case h_15 hop => rw [decodeFamilyE_eq_error_iff]; simp [hop]
  case h_16 hop => rw [decodeFamilyF_eq_error_iff]; simp [hop]
  case h_17 =>
    -- A nibble is one of the sixteen.
    exfalso
    generalize fieldOp w = n at *
    revert n
    decide
  all_goals
    rename_i hop
    simp [hop]

/-- Settles O7: a decoded instruction is what a row of the table reads from its word. -/
theorem decodedIsWellFormed : Obligations.DecodedIsWellFormed := by
  intro w i h
  obtain ⟨r, hr, -, rfl⟩ := decode_eq_ok_iff.mp h
  exact wellFormed_operands hr

/-- Settles O8: eight fixed words, decoded by evaluation. -/
theorem sampleWordsDecode : Obligations.SampleWordsDecode := ⟨rfl, rfl, rfl, rfl, rfl, rfl, rfl, rfl⟩

end Sys2Proof
end

section
/-! SUPPORT. Memory in canonical form (20_memory R50): two canonical lists that read alike at every address are the same
list, and the statement O26. -/

namespace Sys2Proof.Machine

section
variable {low k k' : Nat} {b b' : Byte} {m m' : List Host.Cell}

theorem Memory.risingFrom_cons_iff :
    Memory.risingFrom low ((k, b) :: m) = true ↔ low ≤ k ∧ Memory.risingFrom (k + 1) m = true := by
  rw [Memory.risingFrom, Bool.and_eq_true, decide_eq_true_eq]

theorem Memory.read_cons_self : Memory.read ((k, b) :: m) k = b := if_pos rfl

theorem Memory.read_cons_of_ne {a : Nat} (ha : k ≠ a) : Memory.read ((k, b) :: m) a = Memory.read m a := if_neg ha

/-- An address below every listed one reads as its reset contents. -/
theorem Memory.read_below {a : Nat} (ha : a < low) (hm : Memory.risingFrom low m = true) :
    Memory.read m a = Memory.initial a := by
  induction m generalizing low with
  | nil => rfl
  | cons c m ih =>
    obtain ⟨hk, hrest⟩ := Memory.risingFrom_cons_iff.mp hm
    rw [Memory.read_cons_of_ne (by omega)]
    exact ih (by omega) hrest

/-- A first entry that differs from the reset contents shows when the other list starts above it. -/
theorem Memory.read_cons_ne_of_above (hb : b ≠ Memory.initial k) (hm' : Memory.risingFrom (k + 1) m' = true) :
    Memory.read ((k, b) :: m) k ≠ Memory.read m' k := by
  rwa [Memory.read_cons_self, Memory.read_below (Nat.lt_succ_self k) hm']

/-- A list that reads like one whose first entry differs from the reset contents does not start above that entry. -/
theorem Memory.head_le_of_read_eq (hb : b ≠ Memory.initial k) (hm' : Memory.risingFrom low ((k', b') :: m') = true)
    (h : ∀ a, Memory.read ((k, b) :: m) a = Memory.read ((k', b') :: m') a) : k' ≤ k := by
  by_contra! hlt
  obtain ⟨-, hrest⟩ := Memory.risingFrom_cons_iff.mp hm'
  exact Memory.read_cons_ne_of_above hb (Memory.risingFrom_cons_iff.mpr ⟨hlt, hrest⟩) (h k)

/-- Rising lists whose entries all differ from the reset contents are equal when they read alike. -/
theorem Memory.eq_of_read_eq (hm : Memory.risingFrom low m = true) (hm' : Memory.risingFrom low m' = true)
    (hne : ∀ c ∈ m, c.2 ≠ Memory.initial c.1) (hne' : ∀ c ∈ m', c.2 ≠ Memory.initial c.1)
    (h : ∀ a, Memory.read m a = Memory.read m' a) : m = m' := by
  induction m generalizing low m' with
  | nil =>
    cases m' with
    | nil => rfl
    | cons c' m' => exact absurd (h c'.1).symm (Memory.read_cons_ne_of_above (hne' c' List.mem_cons_self) rfl)
  | cons c m ih =>
    cases m' with
    | nil => exact absurd (h c.1) (Memory.read_cons_ne_of_above (hne c List.mem_cons_self) rfl)
    | cons c' m' =>
      obtain ⟨k, b⟩ := c
      obtain ⟨k', b'⟩ := c'
      obtain rfl : k = k' := Nat.le_antisymm
        (Memory.head_le_of_read_eq (hne' _ List.mem_cons_self) hm fun a => (h a).symm)
        (Memory.head_le_of_read_eq (hne _ List.mem_cons_self) hm' h)
      obtain rfl : b = b' := by simpa only [Memory.read_cons_self] using h k
      obtain ⟨-, hrest⟩ := Memory.risingFrom_cons_iff.mp hm
      obtain ⟨-, hrest'⟩ := Memory.risingFrom_cons_iff.mp hm'
      have htails : ∀ a, Memory.read m a = Memory.read m' a := by
        intro a
        by_cases ha : k = a
        · subst ha
          rw [Memory.read_below (Nat.lt_succ_self k) hrest, Memory.read_below (Nat.lt_succ_self k) hrest']
        · simpa only [Memory.read_cons_of_ne ha] using h a
      rw [ih hrest hrest' (fun c hc => hne c (List.mem_cons_of_mem _ hc))
        (fun c hc => hne' c (List.mem_cons_of_mem _ hc)) htails]

end

/-- Settles O26: the canonical form lists, in rising order, exactly the addresses that differ from the reset contents. -/
theorem canonicalMemoriesThatReadAlikeAreEqual : Obligations.CanonicalMemoriesThatReadAlikeAreEqual := by
  intro m m' hm hm' h
  obtain ⟨hrise, hlisted⟩ := (Memory.wf_iff m).mp hm
  obtain ⟨hrise', hlisted'⟩ := (Memory.wf_iff m').mp hm'
  exact Memory.eq_of_read_eq hrise hrise' (fun c hc => (hlisted c hc).2) (fun c hc => (hlisted' c hc).2) h

end Sys2Proof.Machine
end

section
/-! SUPPORT. The invariant of the machine: what keeps it (10_state R26, 20_memory R50, 60_exceptions R210 to R214), and the
statements O20, O21, O55 and O22. -/

namespace Sys2Proof.Safety

open Sys2Proof.Machine

section
variable {s t : State}

/-- The invariant speaks of memory, `PC`, the stack and the latches only, and ending a wait does not break it. -/
theorem Inv.congr (h : Inv s) (hmem : t.mem = s.mem) (hpc : t.pc = s.pc) (hstack : t.stack = s.stack)
    (hsp : t.sp = s.sp) (hfault : t.fault = s.fault) (hwait : t.awaiting = true → s.awaiting = true) : Inv t where
  memory := by rw [hmem]; exact h.memory
  pcBound := by rw [hpc]; exact h.pcBound
  stackBound := by rw [hstack]; exact h.stackBound
  oneStop hw := by rw [hfault]; exact h.oneStop (hwait hw)
  faultOk := by rw [FaultConsistent, hfault, hsp]; exact h.faultOk

theorem faultConsistent_of_none (h : s.fault = none) : FaultConsistent s := by
  rw [FaultConsistent, h]
  trivial

/-- A core that does not wait keeps the invariant when it raises a fault that agrees with its state. -/
theorem Inv.raise (h : Inv s) (hw : s.awaiting = false) {f : Fault} (hf : FaultConsistent (s.raise f)) :
    Inv (s.raise f) where
  memory := h.memory
  pcBound := h.pcBound
  stackBound := h.stackBound
  oneStop hwait := absurd (hw.symm.trans hwait) Bool.false_ne_true
  faultOk := hf

/-- A fetched instruction keeps the invariant: it lies at most at 0xFFE, so `pc_next`, which `CALL` pushes, is at most
0x1000 and the end of a skip at most 0x1002 (R26). -/
theorem Inv.of_execEffect (h : Inv s) (hfetch : CanFetch s) (he : ExecEffect s t) : Inv t := by
  obtain ⟨hf, hw, hp⟩ := hfetch
  have hcommitted : t.fault = s.fault → Inv t := fun hkept =>
    { memory := he.memory h.memory
      pcBound := by
        obtain hpc | hpc | hpc | hpc | ⟨j, hpc⟩ := he.pc
        · rw [hpc]; exact h.pcBound
        · rw [hpc]; bv_omega
        · rw [hpc]; bv_omega
        · exact hpc
        · rw [hpc]; exact (h.stackBound j).trans (by decide)
      stackBound := fun j => by
        obtain hj | hj := he.stack j
        · rw [hj]; exact h.stackBound j
        · rw [hj]; bv_omega
      oneStop := fun _ => hkept.trans hf
      faultOk := faultConsistent_of_none (hkept.trans hf) }
  obtain hkept | ⟨rfl, hsp⟩ | ⟨rfl, hsp⟩ | ⟨a, rfl, ha⟩ := he.fault
  · exact hcommitted hkept
  · exact h.raise hw hsp
  · exact h.raise hw hsp
  · exact h.raise hw ha

/-- An image that is accepted ends inside memory (70_reset_and_hazards R256). -/
theorem Inv.load (h : Inv s) (image : List Byte) : Inv (load image s).2 := by
  by_cases hfits : image.length ≤ 3584
  · rw [load_fits s image hfits]
    have hmem : Memory.wf (Memory.writeBlock s.mem 0x200 image) = true :=
      Memory.wf_writeBlock s.mem 0x200 image h.memory (by rw [Config.memSize]; omega)
    exact ⟨hmem, h.pcBound, h.stackBound, h.oneStop, h.faultOk⟩
  · rw [load_tooLarge s image (by omega)]
    exact h

end

end Sys2Proof.Safety

namespace Sys2Proof.Machine

open Sys2Proof.Safety

/-- Settles O20: memory lists nothing, `PC` is 0x200, every slot is 0 and both latches are clear. -/
theorem invariantHoldsAtReset : Obligations.InvariantHoldsAtReset where
  memory := Memory.wf_nil
  pcBound := by decide
  stackBound j := by rw [State.reset_eq_resetMachine, resetMachine_stack]; decide
  oneStop _ := rfl
  faultOk := trivial

/-- Settles O21: the step of a running core raises a fault of the fetch or the decoder, which agrees with the word or the
address it reports, or executes a fetched instruction. -/
theorem stepKeepsTheInvariant : Obligations.StepKeepsTheInvariant := by
  intro s t h hstep
  obtain ⟨-, rfl⟩ | ⟨hr, -, rfl⟩ | ⟨hr, -, ⟨e, hd⟩, rfl⟩ | ⟨hr, hp, i, -, hexec⟩ := step_cases s t hstep
  · exact h
  · obtain ⟨-, hw⟩ := s.running_iff.mp hr
    exact h.raise hw ((Nat.le_max_right _ _).trans_eq (reportedAddress_toNat s.pc).symm)
  · obtain ⟨-, hw⟩ := s.running_iff.mp hr
    exact h.raise hw (hd.trans (congrArg Except.error (decode_error _ e hd)))
  · obtain ⟨hf, hw⟩ := s.running_iff.mp hr
    exact h.of_execEffect ⟨hf, hw, hp⟩ (exec_effect i s t hexec)

/-- Settles O55: the host's operations but `Reset` and `Load` write no part that the invariant speaks of, except that a
delivery ends a wait. -/
theorem everyOperationKeepsTheInvariant : Obligations.EveryOperationKeepsTheInvariant := by
  intro o s t h hop
  cases o with
  | reset => cases hop; exact invariantHoldsAtReset.congr rfl rfl rfl rfl rfl fun hw => hw
  | load image => cases hop; exact h.load image
  | setKeys k =>
    cases hop
    exact h.congr (setKeys_mem s k) (setKeys_pc s k) (setKeys_stack s k) (setKeys_sp s k) (setKeys_fault s k)
      (setKeys_awaiting s k).symm.trans
  | keyDeliver k =>
    cases hop
    exact h.congr (keyDeliver_mem s k) (keyDeliver_pc s k) (keyDeliver_stack s k) (keyDeliver_sp s k)
      (keyDeliver_fault s k) fun hw => absurd ((keyDeliver_awaiting s k).symm.trans hw) Bool.false_ne_true
  | step => exact stepKeepsTheInvariant s t h hop
  | tickTimers =>
    cases hop
    exact h.congr (tickTimers_mem s) (tickTimers_pc s) (tickTimers_stack s) (tickTimers_sp s) (tickTimers_fault s)
      (tickTimers_awaiting s).symm.trans

/-- Settles O22: the invariant holds at reset and each operation keeps it. -/
theorem reachableStatesMeetTheInvariant : Obligations.ReachableStatesMeetTheInvariant := by
  intro s hs
  induction hs with
  | reset => exact invariantHoldsAtReset
  | op o _ hop ih => exact everyOperationKeepsTheInvariant o _ _ ih hop

end Sys2Proof.Machine
end

section
/-! SUPPORT. Which parts of the state an instruction may change (10_state R20, the column "written by"), said once as the
frame of every instruction, and what follows from it: the statements O24, O15, O23 and O39. -/

namespace Sys2Proof.Machine

open Sys2Proof.Safety

section
variable {s t : State}

/-- Everything `RET` can do: underflow, or a jump to the popped slot (41_control_flow R121). -/
theorem exec_ret_cases (h : exec .ret s = .next t) :
    (s.sp.val = 0 ∧ t = s.raise .stackUnderflow) ∨
      ∃ j : Fin 16, s.sp.val = j.val + 1 ∧ t = State.jump { s with sp := j.castSucc } s.stack[j] := by
  obtain h0 | hpos := Nat.eq_zero_or_pos s.sp.val
  · cases (exec_ret_of_sp_zero h0).symm.trans h
    exact .inl ⟨h0, rfl⟩
  · have hj : s.sp.val = (⟨s.sp.val - 1, by omega⟩ : Fin 16).val + 1 := (Nat.sub_add_cancel hpos).symm
    cases (exec_ret_of_sp_eq hj).symm.trans h
    exact .inr ⟨_, hj, rfl⟩

/-- Everything `CALL` can do: overflow, or a push of `pc_next` and a jump (R123). -/
theorem exec_callNnn_cases {nnn : BitVec 12} (h : exec (.callNnn nnn) s = .next t) :
    (s.sp.val = 16 ∧ t = s.raise .stackOverflow) ∨
      ∃ j : Fin 16, s.sp.val = j.val ∧
        t = State.jump { s with stack := s.stack.set j.val (s.pc + 2), sp := j.succ } (addressOf nnn) := by
  obtain h16 | hlt := Nat.eq_or_lt_of_le (Nat.le_of_lt_succ s.sp.isLt)
  · cases (exec_callNnn_of_sp_full nnn h16).symm.trans h
    exact .inl ⟨h16, rfl⟩
  · cases (exec_callNnn_of_sp_eq nnn (j := ⟨s.sp.val, hlt⟩) rfl).symm.trans h
    exact .inr ⟨_, rfl, rfl⟩

/-- `RET` moves `SP` and leaves every slot as it is (10_state R27). -/
theorem exec_ret_stack (h : exec .ret s = .next t) : t.stack = s.stack := by
  obtain ⟨-, rfl⟩ | ⟨j, -, rfl⟩ := exec_ret_cases h <;> rfl

end

end Sys2Proof.Machine

namespace Sys2Proof.Safety

open Sys2Proof.Machine

/-- The parts of the state, besides `PC`, that an instruction may change (10_state R20); `FAULT` is among them where the
instruction can fault. -/
def writtenParts (i : Instr) : List Part :=
  match i with
  | .jpNnn _ | .jpV0Nnn _ | .seVxNn _ _ | .sneVxNn _ _ | .seVxVy _ _ | .sneVxVy _ _ | .skpVx _ | .sknpVx _ => []
  | .ret | .callNnn _ => [.stack, .fault]
  | .ldVxNn _ _ | .addVxNn _ _ | .ldVxVy _ _ | .orVxVy _ _ | .andVxVy _ _ | .xorVxVy _ _ | .addVxVy _ _ | .subVxVy _ _
  | .shrVx _ | .subnVxVy _ _ | .shlVx _ | .ldVxDt _ => [.regs]
  | .rndVxNn _ _ => [.regs, .draws]
  | .ldINnn _ | .addIVx _ | .ldFVx _ => [.index]
  | .ldBVx _ | .ldMemVx _ => [.memory, .fault]
  | .ldVxMem _ => [.regs, .fault]
  | .cls => [.display]
  | .drwVxVyN _ _ _ => [.regs, .display, .fault]
  | .ldVxK _ => [.wait]
  | .ldDtVx _ => [.delayTimer]
  | .ldStVx _ => [.soundTimer]

section
variable {s t u : State} {i : Instr} {changed : List Part}

theorem frameBut_raise (s : State) (f : Fault) (hfault : .fault ∈ changed) : FrameBut changed s (s.raise f) := by
  obtain ⟨-, -, hframe⟩ := raised_raise s f
  exact hframe.mono fun _ hp => List.mem_singleton.mp hp ▸ hfault

/-- A draw is counted, and nothing else changes (42_load_alu R152; log entry 2). -/
theorem frameBut_draw (s : State) : FrameBut [.draws] s s.draw.2 := by
  intro p hp
  cases p with
  | draws => exact absurd (List.mem_singleton_self _) hp
  | regs | memory => exact fun _ => rfl
  | stack | wait => exact ⟨rfl, rfl⟩
  | index | delayTimer | soundTimer | display | keys | fault => rfl

/-- An access at `I` changes what its effect changes, or latches a fault (20_memory R54). -/
theorem FrameBut.withRange {n : Nat} (hu : FrameBut changed s u) (hfault : .fault ∈ changed)
    (h : s.withRange n u = .next t) : FrameBut changed s t := by
  obtain ⟨-, rfl⟩ | ⟨-, -, rfl⟩ := State.withRange_cases s u t n h
  · exact hu
  · exact frameBut_raise s _ hfault

/-- The frame of every instruction (10_state R20). -/
theorem exec_frame (h : exec i s = .next t) : FrameBut (writtenParts i) s t := by
  cases i with
  | jpNnn | jpV0Nnn => cases h; exact frameBut_jump s _
  | seVxNn | sneVxNn | seVxVy | sneVxVy | skpVx | sknpVx => cases h; exact frameBut_skipIf s _
  | ret =>
    obtain ⟨-, rfl⟩ | ⟨j, -, rfl⟩ := exec_ret_cases h
    · exact frameBut_raise s _ (by simp [writtenParts])
    · exact ((frameBut_setStack s s.stack j.castSucc).mono (by simp [writtenParts])).jump _
  | callNnn =>
    obtain ⟨-, rfl⟩ | ⟨j, -, rfl⟩ := exec_callNnn_cases h
    · exact frameBut_raise s _ (by simp [writtenParts])
    · exact ((frameBut_setStack s _ j.succ).mono (by simp [writtenParts])).jump _
  | ldVxNn | addVxNn | ldVxVy | orVxVy | andVxVy | xorVxVy | ldVxDt =>
    cases h; exact ((FrameBut.refl _ s).setReg (by simp [writtenParts]) _ _).advance
  | addVxVy | subVxVy | shrVx | subnVxVy | shlVx =>
    cases h; exact ((FrameBut.refl _ s).setRegFlag (by simp [writtenParts]) _ _ _).advance
  | rndVxNn =>
    cases h; exact (((frameBut_draw s).mono (by simp [writtenParts])).setReg (by simp [writtenParts]) _ _).advance
  | ldINnn | addIVx | ldFVx => cases h; exact (frameBut_setIndex s _).advance
  | ldBVx | ldMemVx =>
    exact ((frameBut_writeBlock s _ _).mono (by simp [writtenParts])).advance.withRange (by simp [writtenParts]) h
  | ldVxMem x =>
    exact ((frameBut_loadRegBlock s x).mono (by simp [writtenParts])).advance.withRange (by simp [writtenParts]) h
  | drwVxVyN =>
    exact ((frameBut_commitBlit s _).mono (by simp [writtenParts])).advance.withRange (by simp [writtenParts]) h
  | cls => cases h; exact (frameBut_setDisplay s _).advance
  | ldVxK => cases h; exact (frameBut_setWait s _ _).advance
  | ldDtVx => cases h; exact ((FrameBut.refl _ s).setDelayTimer (by simp [writtenParts]) _).advance
  | ldStVx => cases h; exact ((FrameBut.refl _ s).setSoundTimer (by simp [writtenParts]) _).advance

/-- A part that an instruction changes is one it writes. -/
theorem mem_writtenParts_of_changed {p : Part} (h : exec i s = .next t) (hne : ¬ SamePart p s t) : p ∈ writtenParts i :=
  by_contra fun hp => hne (exec_frame h p hp)

/-- The written parts, read the other way round: the instructions that write each part (R20). -/
theorem writers_of_mem_writtenParts (i : Instr) :
    (.index ∈ writtenParts i → (∃ nnn, i = .ldINnn nnn) ∨ (∃ x, i = .addIVx x) ∨ (∃ x, i = .ldFVx x)) ∧
    (.stack ∈ writtenParts i → (∃ nnn, i = .callNnn nnn) ∨ i = .ret) ∧
    (.delayTimer ∈ writtenParts i → ∃ x, i = .ldDtVx x) ∧
    (.soundTimer ∈ writtenParts i → ∃ x, i = .ldStVx x) ∧
    (.memory ∈ writtenParts i → (∃ x, i = .ldBVx x) ∨ (∃ x, i = .ldMemVx x)) ∧
    (.display ∈ writtenParts i → i = .cls ∨ ∃ x y n, i = .drwVxVyN x y n) ∧
    (.wait ∈ writtenParts i → ∃ x, i = .ldVxK x) ∧
    (.draws ∈ writtenParts i → ∃ x nn, i = .rndVxNn x nn) := by
  cases i <;> simp [writtenParts]

/-- Of the instructions only `LD VX,K` touches the wait (R35, R36). -/
theorem eq_ldVxK_of_wait_changed (h : exec i s = .next t) (hne : t.awaiting ≠ s.awaiting ∨ t.kx ≠ s.kx) :
    ∃ x, i = .ldVxK x := by
  obtain ⟨-, -, -, -, -, -, hwait, -⟩ := writers_of_mem_writtenParts i
  exact hwait (mem_writtenParts_of_changed h (not_and_or.mpr hne))

end

end Sys2Proof.Safety

namespace Sys2Proof.Machine

open Sys2Proof.Safety

/-- Settles O24: what an instruction changes is in its row of written parts; `RET` shares its row with `CALL` but leaves
the slots alone. -/
theorem eachPartIsWrittenOnlyByItsInstructions : Obligations.EachPartIsWrittenOnlyByItsInstructions := by
  intro i s t h
  have hwrites : ∀ p, ¬ SamePart p s t → p ∈ writtenParts i := fun p => mem_writtenParts_of_changed h
  obtain ⟨hi, hstack, hdt, hst, hmem, hfb, -, hdraws⟩ := writers_of_mem_writtenParts i
  have hslots : t.stack ≠ s.stack → ∃ nnn, i = .callNnn nnn := fun hne => by
    obtain hcall | rfl := hstack (hwrites .stack fun hsame => hne hsame.1)
    · exact hcall
    · exact absurd (exec_ret_stack h) hne
  exact ⟨fun hne => hi (hwrites .index hne), hslots, fun hne => hstack (hwrites .stack fun hsame => hne hsame.2),
    fun hne => hdt (hwrites .delayTimer hne), fun hne => hst (hwrites .soundTimer hne),
    fun a hne => hmem (hwrites .memory fun hsame => hne (hsame a)), fun hne => hfb (hwrites .display hne), exec_keys h,
    eq_ldVxK_of_wait_changed h, fun hne => hdraws (hwrites .draws hne)⟩

/-- Settles O15: of the operations only `Step` can start a wait, and of what a step can do only an execution. -/
theorem waitIsSetAndClearedOnlyByItsOwners : Obligations.WaitIsSetAndClearedOnlyByItsOwners := by
  refine ⟨fun _ _ _ => applyOp_ends_wait, fun s t o h hs ht => ?_⟩
  have hne : t.awaiting ≠ s.awaiting := by rw [hs, ht]; decide
  cases o with
  | step =>
    obtain ⟨-, rfl⟩ | ⟨-, -, rfl⟩ | ⟨-, -, -, rfl⟩ | ⟨-, -, i, hd, hexec⟩ := step_cases s t h
    · exact absurd rfl hne
    · exact absurd rfl hne
    · exact absurd rfl hne
    · obtain ⟨x, rfl⟩ := eq_ldVxK_of_wait_changed hexec (.inl hne)
      exact ⟨rfl, x, hd⟩
  | reset => cases h; exact absurd hs.symm hne
  | load image => cases h; exact absurd (load_awaiting image) hne
  | setKeys k => cases h; exact absurd (setKeys_awaiting s k) hne
  | keyDeliver k => cases h; exact absurd ((keyDeliver_awaiting s k).trans hs.symm) hne
  | tickTimers => cases h; exact absurd (tickTimers_awaiting s) hne

section
variable {s t : State} {i : Instr}

/-- An instruction that writes no flag and does not name `VF` as its destination keeps `VF` (10_state R22). -/
theorem exec_reg_vf_of_not_written (h : exec i s = .next t) (hflag : writesFlag i = false)
    (hdest : destination i ≠ some vf) : t.reg vf = s.reg vf := by
  cases i with
  | addVxVy | subVxVy | shrVx | subnVxVy | shlVx | drwVxVyN => exact absurd hflag (by simp [writesFlag])
  | ldVxNn x | addVxNn x | ldVxVy x | orVxVy x | andVxVy x | xorVxVy x | rndVxNn x | ldVxDt x =>
    cases h
    have hx : vf ∉ [x] := fun hmem => hdest (congrArg some (List.mem_singleton.mp hmem).symm)
    exact sameRegsBut_setReg _ x _ vf hx
  | ldVxMem x =>
    obtain ⟨-, rfl⟩ | ⟨-, -, rfl⟩ := State.withRange_cases s _ t _ h
    · have hx : ¬ vf.val ≤ x.val := fun hle =>
        hdest (congrArg some (Fin.ext (Nat.le_antisymm (Nat.le_of_lt_succ x.isLt) hle)))
      rw [State.advance_reg, State.loadRegBlock_reg, if_neg hx]
    · rfl
  | _ => exact exec_frame h .regs (by simp [writtenParts]) vf

/-- A flag instruction that commits leaves `VF` exactly 0 or 1 (R22). -/
theorem exec_reg_vf_of_flag (h : exec i s = .next t) (hflag : writesFlag i = true) (ht : t.fault = none) :
    t.reg vf = 0 ∨ t.reg vf = 1 := by
  cases i with
  | addVxVy | subVxVy | subnVxVy => cases h; rw [State.setRegFlag_advance_reg_vf]; exact flagByte_cases _
  | shrVx => cases h; rw [State.setRegFlag_advance_reg_vf]; exact shiftRightFlag_cases _
  | shlVx => cases h; rw [State.setRegFlag_advance_reg_vf]; exact shiftLeftFlag_cases _
  | drwVxVyN x y n =>
    obtain ⟨-, rfl⟩ | ⟨-, -, rfl⟩ := State.withRange_cases s _ t _ h
    · rw [← State.drawn, State.drawn_reg_vf]; exact flagByte_cases _
    · exact absurd ht (Option.some_ne_none _)
  | _ => exact absurd hflag Bool.false_ne_true

end

/-- Settles O23: an instruction that is none of the six reaches `VF` only as its destination, and each of the six writes
a flag byte into it. -/
theorem onlySixInstructionsWriteTheFlag : Obligations.OnlySixInstructionsWriteTheFlag :=
  ⟨fun _ _ _ => exec_reg_vf_of_not_written, fun _ _ _ h hflag _ => exec_reg_vf_of_flag h hflag⟩

/-- Settles O39: row 22 of the opcode table, the masked byte read back, and the frame. -/
theorem randomIsMasked : Obligations.RandomIsMasked := by
  refine ⟨encodedAs_row 21, fun x nn s => ?_⟩
  have hreg := State.setReg_advance_reg_self s.draw.2 x (Config.draw8 s.draws &&& nn)
  refine ⟨_, rfl, hreg, rfl, fun j hj => ?_, rfl, sameRegsBut_setReg s.draw.2 x _, exec_frame (i := .rndVxNn x nn) rfl⟩
  exact (congrArg (BitVec.getLsbD · j) hreg).trans (by rw [BitVec.getLsbD_and, hj, Bool.and_false])

end Sys2Proof.Machine
end

section
/-! SUPPORT. The step cycle (40_step_cycle): what a running core's step reports (R100, R230), that no instruction reads
`ST` (10_state R30), which steps change nothing (R108), and the statements O9, O14, O16, O19, O25 and O56. -/

namespace Sys2Proof.Machine

open Sys2Proof.Safety

section
variable {s t u : State} {i : Instr}

theorem stepReport_of_running (hr : s.running = true) :
    stepReport s t = match t.fault with | some f => .fault f | none => .ok := by
  obtain ⟨hf, hw⟩ := s.running_iff.mp hr
  exact (if_neg (by simp [hf])).trans (if_neg (by simp [hw]))

/-! ### No instruction reads `ST` -/

/-- The outcome is a next state that equals `t` up to its `ST`. -/
def NextUpToSt (o : StepOutcome) (t : State) : Prop := ∃ u, o = .next u ∧ { u with st := t.st } = t

section
variable {b : Byte}

theorem skipIf_upToSt (c : Bool) : NextUpToSt (.next (State.skipIf { s with st := b } c)) (s.skipIf c) := by
  cases c <;> exact ⟨_, rfl, rfl⟩

/-- The range check does not read `ST`, so an effect that agrees up to `ST` does so after it (20_memory R54). -/
theorem withRange_upToSt {n : Nat} (h : s.withRange n u = .next t) :
    NextUpToSt (State.withRange { s with st := b } n { u with st := b }) t := by
  obtain ⟨hin, rfl⟩ | ⟨hn, hout, rfl⟩ := State.withRange_cases s u t n h
  · exact ⟨_, State.withRange_ok _ _ n hin, rfl⟩
  · exact ⟨_, State.withRange_fault _ _ n hn hout, rfl⟩

/-- No instruction reads `ST` (10_state R30, R41): from another `ST` it answers the same state up to `ST`. -/
theorem exec_upToSt (h : exec i s = .next t) : NextUpToSt (exec i { s with st := b }) t := by
  cases i with
  | ret =>
    obtain ⟨h0, rfl⟩ | ⟨j, hj, rfl⟩ := exec_ret_cases h
    · exact ⟨_, exec_ret_of_sp_zero h0, rfl⟩
    · exact ⟨_, exec_ret_of_sp_eq (s := { s with st := b }) hj, rfl⟩
  | callNnn nnn =>
    obtain ⟨h16, rfl⟩ | ⟨j, hj, rfl⟩ := exec_callNnn_cases h
    · exact ⟨_, exec_callNnn_of_sp_full nnn h16, rfl⟩
    · exact ⟨_, exec_callNnn_of_sp_eq (s := { s with st := b }) nnn hj, rfl⟩
  | seVxNn | sneVxNn | seVxVy | sneVxVy | skpVx | sknpVx => cases h; exact skipIf_upToSt _
  | ldBVx | ldMemVx | ldVxMem | drwVxVyN => exact withRange_upToSt h
  | _ => cases h; exact ⟨_, rfl, rfl⟩

end

/-! ### The finished core -/

/-- A core is finished exactly when it fetches a jump to its own `PC` (R108; log entry 17). -/
theorem State.finished_iff_selfJump : s.finished = true ↔ CanFetch s ∧ ∃ nnn : BitVec 12,
    decode (Memory.readWord s.mem s.pc.toNat) = .ok (.jpNnn nnn) ∧ nnn.toNat = s.pc.toNat := by
  simp only [State.finished_iff, CanFetch, decode_eq_jpNnn_iff, and_assoc]
  refine and_congr_right fun _ => and_congr_right fun _ => and_congr_right fun hp => ⟨fun hword => ?_, ?_⟩
  · have hpc : (BitVec.ofNat 12 s.pc.toNat).toNat = s.pc.toNat := by rw [BitVec.toNat_ofNat]; omega
    exact ⟨_, by rw [hpc, hword], hpc⟩
  · rintro ⟨nnn, hword, hpc⟩
    rw [hword, hpc]

theorem step_finished (h : s.finished = true) : step s = .next s := by
  obtain ⟨hfetch, nnn, hd, hpc⟩ := State.finished_iff_selfJump.mp h
  obtain ⟨-, -, hself, -⟩ := jpJumps
  rw [step_decoded hfetch hd, hself nnn s hpc.symm]

theorem stepReport_finished (h : s.finished = true) : stepReport s s = .ok := by
  obtain ⟨⟨hf, hw⟩, -⟩ := s.finished_iff.mp h
  rw [stepReport_of_running (s.running_iff.mpr ⟨hf, hw⟩), hf]

theorem State.finished_congr (hf : t.fault = s.fault) (hw : t.awaiting = s.awaiting) (hpc : t.pc = s.pc)
    (hmem : t.mem = s.mem) : t.finished = s.finished := by
  simp only [State.finished, State.running, hf, hw, hpc, hmem]

/-- Only `Reset` and `Load` end a finished core (R108). -/
theorem applyOp_finished {o : Op} (hs : s.finished = true) (h : applyOp o s = .next t) (hreset : o ≠ .reset)
    (hload : ∀ image, o ≠ .load image) : t.finished = true := by
  cases o with
  | reset => exact absurd rfl hreset
  | load image => exact absurd rfl (hload image)
  | setKeys k =>
    cases h
    exact (State.finished_congr (setKeys_fault s k) (setKeys_awaiting s k) (setKeys_pc s k) (setKeys_mem s k)).trans hs
  | keyDeliver k =>
    obtain ⟨⟨-, hw⟩, -⟩ := s.finished_iff.mp hs
    cases (congrArg Host.Outcome.next (keyDeliver_idle s k hw)).symm.trans h
    exact hs
  | step => cases (step_finished hs).symm.trans h; exact hs
  | tickTimers =>
    cases h
    exact (State.finished_congr (tickTimers_fault s) (tickTimers_awaiting s) (tickTimers_pc s) (tickTimers_mem s)).trans hs

/-! ### Steps that change nothing -/

theorem State.advance_ne (hu : u.pc = s.pc) : u.advance ≠ s := by
  intro h
  have hpc : s.pc + 2 = s.pc := by simpa only [State.advance_pc, hu] using congrArg State.pc h
  bv_omega

theorem State.skipIf_ne (s : State) (c : Bool) : s.skipIf c ≠ s := by
  intro h
  have hpc : (if c then s.pc + 2 + 2 else s.pc + 2) = s.pc := (s.skipIf_pc c).symm.trans (congrArg State.pc h)
  split at hpc <;> bv_omega

theorem State.raise_ne (hf : s.fault = none) (f : Fault) : s.raise f ≠ s := by
  intro h
  rw [← h] at hf
  cases hf

/-- An instruction that changes nothing, not even the latch, is a jump to its own address: every other one moves `PC` on or
`SP` by one. -/
theorem exec_eq_self_cases (hf : s.fault = none) (h : exec i s = .next s) :
    (∃ nnn, i = .jpNnn nnn ∧ addressOf nnn = s.pc) ∨
      ∃ nnn, i = .jpV0Nnn nnn ∧ addressOf nnn + (s.reg 0).toWord = s.pc := by
  cases i with
  | jpNnn nnn => exact .inl ⟨nnn, rfl, congrArg State.pc (Host.Outcome.next.inj h)⟩
  | jpV0Nnn nnn => exact .inr ⟨nnn, rfl, congrArg State.pc (Host.Outcome.next.inj h)⟩
  | seVxNn | sneVxNn | seVxVy | sneVxVy | skpVx | sknpVx => exact absurd (Host.Outcome.next.inj h) (s.skipIf_ne _)
  | ret =>
    obtain ⟨-, hraise⟩ | ⟨j, hj, hpop⟩ := exec_ret_cases h
    · exact absurd hraise.symm (State.raise_ne hf _)
    · have hsp : s.sp = j.castSucc := congrArg State.sp hpop
      rw [hsp, Fin.val_castSucc] at hj
      omega
  | callNnn nnn =>
    obtain ⟨-, hraise⟩ | ⟨j, hj, hpush⟩ := exec_callNnn_cases h
    · exact absurd hraise.symm (State.raise_ne hf _)
    · have hsp : s.sp = j.succ := congrArg State.sp hpush
      rw [hsp, Fin.val_succ] at hj
      omega
  | ldBVx | ldMemVx | ldVxMem | drwVxVyN =>
    obtain ⟨-, hcommit⟩ | ⟨-, -, hraise⟩ := State.withRange_cases s _ s _ h
    · exact absurd hcommit.symm (State.advance_ne (by simp))
    · exact absurd hraise.symm (State.raise_ne hf _)
  | _ => exact absurd (Host.Outcome.next.inj h) (State.advance_ne (by rfl))

/-- The fixed points of a running core's step: the finished core, and `JP V0` to its own address (R108, R129). -/
theorem step_eq_self_iff (hf : s.fault = none) (hw : s.awaiting = false) :
    step s = .next s ↔ s.finished = true ∨ (s.pc.toNat ≤ 0xFFE ∧ ∃ nnn : BitVec 12,
      decode (Memory.readWord s.mem s.pc.toNat) = .ok (.jpV0Nnn nnn) ∧
        nnn.toNat + (s.reg 0).toNat = s.pc.toNat) := by
  constructor
  · intro h
    obtain ⟨hr, -⟩ | ⟨-, -, hraise⟩ | ⟨-, -, -, hraise⟩ | ⟨-, hp, i, hd, hexec⟩ := step_cases s s h
    · exact absurd (hr.symm.trans (s.running_iff.mpr ⟨hf, hw⟩)) Bool.false_ne_true
    · exact absurd hraise.symm (State.raise_ne hf _)
    · exact absurd hraise.symm (State.raise_ne hf _)
    · obtain ⟨nnn, rfl, htarget⟩ | ⟨nnn, rfl, htarget⟩ := exec_eq_self_cases hf hexec
      · exact .inl (State.finished_iff_selfJump.mpr ⟨⟨hf, hw, hp⟩, nnn, hd, by rw [← htarget, addressOf_toNat]⟩)
      · exact .inr ⟨hp, nnn, hd, by rw [← htarget, addressOf_add_toWord_toNat]⟩
  · rintro (hfinished | ⟨hp, nnn, hd, hsum⟩)
    · exact step_finished hfinished
    · have htarget : addressOf nnn + (s.reg 0).toWord = s.pc :=
        BitVec.eq_of_toNat_eq (by rw [addressOf_add_toWord_toNat, hsum])
      rw [step_decoded ⟨hf, hw, hp⟩ hd, exec_jpV0Nnn, htarget, State.jump_pc_self]

end

/-! ### The statements -/

/-- Settles O9: the fetched word decodes, so the step is the execution, and a running core's step reports the latch. -/
theorem stepRunsTheDecodedInstruction : Obligations.StepRunsTheDecodedInstruction := by
  intro s i hfetch hd
  obtain ⟨hf, hw, -⟩ := id hfetch
  exact ⟨step_decoded hfetch hd, fun _ _ => stepReport_of_running (s.running_iff.mpr ⟨hf, hw⟩)⟩

/-- Settles O14: the latch outlives every operation but `Reset`, which clears it. -/
theorem onlyResetClearsTheFault : Obligations.OnlyResetClearsTheFault := by
  refine ⟨fun s t f o hf ho h => ?_, fun s t h => ?_⟩
  · have hhalted : s.fault ≠ none := by rw [hf]; exact Option.some_ne_none f
    rw [applyOp_fault_of_halted hhalted ho h, hf]
  · cases h
    rfl

/-- Settles O16: the check is one comparison of natural numbers, and the address it reports fits a word. -/
theorem rangeCheckIsExact : Obligations.RangeCheckIsExact := fun base _ =>
  ⟨fun hout => ⟨_, reportedAddress_toNat base, if_pos hout⟩, fun hin => if_neg hin⟩

/-- Settles O19: memory reads 0 at 0x200 and 0x201, and the word 0x0000 does not decode. -/
theorem firstStepWithoutImageFaults : Obligations.FirstStepWithoutImageFaults := by
  have hfetch : CanFetch State.reset := ⟨rfl, rfl, by decide⟩
  have hword : Memory.readWord State.reset.mem State.reset.pc.toNat = 0x0000 := by decide
  have hstep := step_undecoded hfetch (e := .unknownOpcode 0x0000) (by rw [hword]; rfl)
  rw [hword] at hstep
  exact ⟨_, hstep, rfl, raised_raise _ _⟩

/-- Settles O25: neither the latches' test, nor the fetch, nor the decoder, nor an instruction reads `ST`. -/
theorem soundTimerIsNotReadByInstructions : Obligations.SoundTimerIsNotReadByInstructions := by
  intro s t b h
  obtain ⟨hr, rfl⟩ | ⟨hr, hp, rfl⟩ | ⟨hr, hp, ⟨e, hd⟩, rfl⟩ | ⟨hr, hp, i, hd, hexec⟩ := step_cases s t h
  · exact ⟨_, step_not_running _ hr, rfl⟩
  · exact ⟨_, step_raise _ _ hr (State.fetchDecode_outside { s with st := b } hp), rfl⟩
  · obtain ⟨hf, hw⟩ := s.running_iff.mp hr
    exact ⟨_, step_undecoded (s := { s with st := b }) ⟨hf, hw, hp⟩ hd, rfl⟩
  · rw [step_exec { s with st := b } i hr hp hd]
    exact exec_upToSt hexec

/-- Settles O56: the finished core is the self-jump, what keeps it, and the fixed points of a step. -/
theorem finishedIsTheSelfJump : Obligations.FinishedIsTheSelfJump :=
  ⟨fun _ => State.finished_iff_selfJump, fun _ h => ⟨step_finished h, stepReport_finished h⟩,
    fun _ _ _ => applyOp_finished, fun _ => step_eq_self_iff, step_next⟩

end Sys2Proof.Machine
end

section
/-! SUPPORT. Instructions that undo or feed one another: `CALL` and `RET` (41_control_flow), a register block stored and
loaded back (43_index_memory), a stored instruction executed next (20_memory R62), and the key flags written by the host
(60_exceptions R230); the statements O31, O44, O17 and O54. -/

namespace Sys2Proof.Machine

open Sys2Proof.Safety

/-- Settles O31: `RET` pops the slot that `CALL` pushed, and the two together write that slot and nothing else. -/
theorem callThenRetResumesAfterTheCall : Obligations.CallThenRetResumesAfterTheCall := by
  intro nnn s hsp
  have hcall := exec_callNnn_of_sp_eq (s := s) nnn (j := ⟨s.sp.val, hsp⟩) rfl
  refine ⟨_, _, hcall, exec_ret_of_sp_eq (j := ⟨s.sp.val, hsp⟩) rfl, rfl, ?_, rfl, fun k hk => ?_, ?_⟩
  · exact Vector.getElem_set_self hsp
  · exact Vector.getElem_set_ne hsp k.isLt hk.symm
  · exact (frameBut_setStack s (s.stack.set s.sp.val (s.pc + 2) hsp) s.sp).jump _

/-- `LD VX,[I]` in a state whose bytes at `I` are the registers `V0` to `VX` of `s` brings those registers back (R170). -/
theorem exec_ldVxMem_of_stored {s m : State} {x : Reg} (hroom : s.i.toNat + x.val ≤ 0xFFF) (hi : m.i = s.i)
    (hbytes : ∀ k : Reg, k.val ≤ x.val → m.readByte (s.i.toNat + k.val) = s.reg k) :
    ∃ u, exec (.ldVxMem x) m = .next u ∧ u.fault = m.fault ∧ u.pc = m.pc + 2 ∧ u.i = s.i ∧
      (∀ k : Reg, k.val ≤ x.val → u.reg k = s.reg k) ∧ (∀ k : Reg, x.val < k.val → u.reg k = m.reg k) := by
  obtain ⟨-, hload, -⟩ := registerBlockLoad
  obtain ⟨u, hexec, hloaded, habove, hpc, hframe⟩ := hload x m (by rwa [hi])
  refine ⟨u, hexec, hframe .fault (by simp), hpc, (hframe .index (by simp)).trans hi, fun k hk => ?_, habove⟩
  rw [hloaded k hk, hi, hbytes k hk]

/-- Settles O44: the bytes at `I` after the store are `V0` to `VX`, and the load reads `I` and those bytes only. -/
theorem storeThenLoadRestoresRegisters : Obligations.StoreThenLoadRestoresRegisters := by
  intro x s hroom
  obtain ⟨-, hstore, -⟩ := registerBlockStore
  obtain ⟨t, hexec, hbytes, -, hpc, hframe⟩ := hstore x s hroom
  have hfault : t.fault = s.fault := hframe .fault (by simp)
  have hregs : ∀ r : Reg, t.reg r = s.reg r := hframe .regs (by simp)
  refine ⟨t, hexec, hfault, hpc, ?_, fun m hi hm => ?_⟩
  · obtain ⟨u, hload, hufault, hupc, hui, hlow, habove⟩ :=
      exec_ldVxMem_of_stored hroom (hframe .index (by simp)) hbytes
    refine ⟨u, hload, hufault.trans hfault, by rw [hupc, hpc, add_two_add_two], hui, fun r => ?_⟩
    obtain hr | hr := Nat.lt_or_ge x.val r.val
    · rw [habove r hr, hregs r]
    · exact hlow r hr
  · exact exec_ldVxMem_of_stored hroom hi fun k hk => (hm _).trans (hbytes k hk)

/-- Settles O17: after the store the two bytes at the new `PC` are `V0` and `V1`, so the next step decodes them. -/
theorem storedInstructionIsFetchedNext : Obligations.StoredInstructionIsFetchedNext := by
  intro s x i hf hw hx hp hi hroom hd
  obtain ⟨-, hstore, -⟩ := registerBlockStore
  obtain ⟨t, hexec, hbytes, -, hpc, hframe⟩ := hstore x s hroom
  have hfault : t.fault = s.fault := hframe .fault (by simp)
  obtain ⟨hwait, -⟩ : SamePart .wait s t := hframe .wait (by simp)
  have hpcNat : t.pc.toNat = s.i.toNat := by rw [hpc]; bv_omega
  have hhigh : t.readByte t.pc.toNat = s.reg 0 := hpcNat ▸ hbytes 0 (Nat.zero_le _)
  have hlow : t.readByte (t.pc.toNat + 1) = s.reg 1 := hpcNat ▸ hbytes 1 hx
  refine ⟨t, hexec, step_decoded ⟨hfault.trans hf, hwait.trans hw, by omega⟩ ?_⟩
  rw [readWord_eq_readByte, hhigh, hlow, hd]

theorem frameBut_setKeyFlags (s : State) (flags : Vector Bool 16) : FrameBut [.keys] s { s with keys := flags } := by
  intro p hp
  cases p with
  | keys => exact absurd (List.mem_singleton_self _) hp
  | regs | memory => exact fun _ => rfl
  | stack | wait => exact ⟨rfl, rfl⟩
  | index | delayTimer | soundTimer | display | fault | draws => rfl

/-- Settles O54: each flag is its bit, and the flags are all that is written. -/
theorem setKeysWritesTheFlags : Obligations.SetKeysWritesTheFlags := fun k s =>
  ⟨setKeys_keys s k, setKeys_pc s k, frameBut_setKeyFlags s _⟩

end Sys2Proof.Machine
end
